-- ==== Sys2Proof/Word.lean ====
section
/-! DEFINITION. The word types of HDV: the byte of the ROM buffer and the 16-bit half word of `STATUS`, `GCK_CALC` and
`global_checksum` (spec/00_scope.md section 5, spec/20_memory.md R34). Everything is unsigned. -/

namespace Sys2Proof

/-- A byte, an unsigned integer 0 to 255 (R34). -/
abbrev Byte := BitVec 8

/-- A 16-bit unsigned number: `global_checksum`, `GCK_CALC` and `STATUS` (R12, R17, R22). -/
abbrev Half := BitVec 16

end Sys2Proof
end

