-- ==== Sys2Proof/Syntax.lean ====
section
/-! DEFINITION. The commands of HDV, one constructor per row of spec/opcode_table.json (R50): the five commands and the three
reserved codes. No command has an operand field (R50, R51), so no constructor has an argument. -/

namespace Sys2Proof

/-- A command of HDV (R50). -/
inductive Instr where
  /-- NOP, code 0b000 (R151) -/
  | nop
  /-- DECODE, code 0b001 (R83) -/
  | decode
  /-- VLOGO, code 0b010 (R120) -/
  | vlogo
  /-- VHCK, code 0b011 (R134) -/
  | vhck
  /-- VGCK, code 0b100 (R139) -/
  | vgck
  /-- the reserved code 0b101 (R152) -/
  | reserved5
  /-- the reserved code 0b110 (R152) -/
  | reserved6
  /-- the reserved code 0b111 (R152) -/
  | reserved7
  deriving DecidableEq, Repr

end Sys2Proof
end

