-- ==== Sys2Proof/WellFormed.lean ====
section
/-! DEFINITION. What a well-formed command is. A command has no operand field (R50), so every term of `Instr` is well formed;
what can be ill formed is a byte that is to carry a 3-bit command word. -/

namespace Sys2Proof

/-- Every command is well formed: there is no operand a check could refuse (R50, R51). -/
def Instr.wf : Instr → Bool
  | .nop => true
  | .decode => true
  | .vlogo => true
  | .vhck => true
  | .vgck => true
  | .reserved5 => true
  | .reserved6 => true
  | .reserved7 => true

/-- A byte carries a command word when its bits 7:3, which are no part of the 3-bit word `cmd[2:0]`, are all zero (R50;
DESIGN CHOICE, safe, log entry 3: the spec gives the command word no byte form). -/
def commandByteWf (b : Byte) : Bool := b.extractLsb' 3 5 == 0

end Sys2Proof
end

