-- ==== Sys2Proof/Decode.lean ====
section
/-! DEFINITION. The decoder of the 3-bit command word (R50), total on the eight values; its byte form for the host's opcode
table; and, after it, the encoder, written from the same table. -/

namespace Sys2Proof

/-- Why bytes do not carry one command word (DESIGN CHOICE, safe, log entry 3). -/
inductive DecodeError where
  /-- there is no byte -/
  | noWord
  /-- bits 7:3 of the byte are not zero: they are no part of the 3-bit word -/
  | bitsOutsideWord (b : Byte)
  /-- more than one byte: a command is one word and has no second one (R50, R65) -/
  | tooLong (extra : Nat)
  deriving DecidableEq, Repr

/-- The command a 3-bit command word selects: a total function on the eight values (R50). -/
def decodeCommand (cmd : BitVec 3) : Instr :=
  match cmd with
  | 0b000#3 => .nop
  | 0b001#3 => .decode
  | 0b010#3 => .vlogo
  | 0b011#3 => .vhck
  | 0b100#3 => .vgck
  | 0b101#3 => .reserved5
  | 0b110#3 => .reserved6
  | 0b111#3 => .reserved7

/-- The command word a list of bytes carries: exactly one byte, with its bits 7:3 zero. -/
def commandOfBytes : List Byte → Except DecodeError (BitVec 3)
  | [] => .error .noWord
  | [b] => if commandByteWf b then .ok (b.extractLsb' 0 3) else .error (.bitsOutsideWord b)
  | _ :: rest => .error (.tooLong rest.length)

/-- The command that bytes carry, or the reason why they carry none. -/
def decodeBytes (bytes : List Byte) : Except DecodeError Instr :=
  (commandOfBytes bytes).map decodeCommand

/-- The bytes of a word of `nbits` bits, numbered as the opcode table numbers them: bits 7..0 are the first byte. -/
def tableBytes (nbits w : Nat) : List Byte :=
  (List.range ((nbits + 7) / 8)).map fun i => BitVec.ofNat 8 ((w % 2 ^ nbits) / 256 ^ i)

/-- The command word of a table word, where it has one. -/
def commandOfTableWord (nbits w : Nat) : Option (BitVec 3) :=
  match commandOfBytes (tableBytes nbits w) with
  | .ok c => some c
  | .error _ => none

/-- The command the decoder reads from a word of the opcode table. -/
def decodeTableWord (nbits w : Nat) : Option Instr :=
  (commandOfTableWord nbits w).map decodeCommand

/-- The 3-bit word of a command (R50). -/
def encodeCommand : Instr → BitVec 3
  | .nop => 0b000
  | .decode => 0b001
  | .vlogo => 0b010
  | .vhck => 0b011
  | .vgck => 0b100
  | .reserved5 => 0b101
  | .reserved6 => 0b110
  | .reserved7 => 0b111

/-- The byte form of a command: the 3-bit word in bits 2:0, zeros above (log entry 3). -/
def encodeBytes (i : Instr) : List Byte := [(encodeCommand i).setWidth 8]

end Sys2Proof
end

