-- ==== Sys2Proof/Config.lean ====
section
/-! DEFINITION. What is fixed for the machine: the constants the spec gives (R3, R4, R59) and the OPEN parameters it does not
give (R5 to R9, spec/93_implementation_defined.md U8). An OPEN parameter is an `opaque` constant with no body: nothing can be
proved of it but the facts of R6, which stand in the definitions over it. -/

namespace Sys2Proof

/-- A publisher name (R6). The two names the spec quotes are constructors; every other name of the two tables is `other`
with a number of its own, since the spec gives no further name (N1). "Unknown" is NOT a publisher name (D15). -/
inductive PublisherName where
  /-- "Nintendo" (R6, R104) -/
  | nintendo
  /-- "Nintendo Research & Development 1" (R6, R105) -/
  | nintendoResearchDevelopment1
  /-- any other publisher name of the tables -/
  | other (index : Nat)
  deriving DecidableEq, Repr

/-- A region label, an entry of `DEST_MAP` (R8, R58): the spec names none, so a label is only a symbol. -/
structure RegionLabel where
  index : Nat
  deriving DecidableEq, Repr

namespace Config

/-- `MIN_LEN`, the minimum accepted length of the ROM buffer in bytes (R3). -/
def minLen : Nat := 0x0150

/-- `LOGO_LEN`, the length of the logo signature in bytes (R4). -/
def logoLen : Nat := 48

/-- `HCK_SPAN`, the number of bytes the header checksum covers (R4). -/
def hckSpan : Nat := 25

/-- `LIC_SENTINEL`, "use new licensee code instead" (R59, R103). -/
def licSentinel : Byte := 0x33

/-- `LOGO_REF`, the 48-byte reference signature: OPEN (R5, D14). -/
opaque logoRef : Vector Byte 48

/-- The entries of `OLD_LICENSEE` that the spec does not give: OPEN (R6, D15). -/
opaque oldLicenseeOpen : Byte → Option PublisherName

/-- The entries of `NEW_LICENSEE` that the spec does not give: OPEN (R6, D15). -/
opaque newLicenseeOpen : Byte → Byte → Option PublisherName

/-- `DEST_MAP`, the value-to-label match of `destination_code`: OPEN (R8, D17). -/
opaque destMap : Byte → Option RegionLabel

/-- `RAM_SIZE_MAP`, the size in bytes that a `ram_size` code stands for: OPEN, used by no rule of HDV (R8, R62, D18). -/
opaque ramSizeMap : Byte → Option Nat

/-- `TEXT_DECODE`, the lossy text decoding: OPEN, total, applied outside HDV and by no rule of it (R7, R107, D4). -/
opaque textDecode : List Byte → List Char

/-- How many bits beyond nine the address port of a physical build has: OPEN (R9, D20). -/
opaque addrWidthBeyond9 : Nat

/-- `ADDR_W`, at least 9, used by no rule of the model (R9). -/
def addrWidth : Nat := 9 + addrWidthBeyond9

/-- `OLD_LICENSEE`, a partial map from a byte to a publisher name; `none` is a lookup miss. The two facts of R6: 0x01 is
"Nintendo", 0xFE has no entry. -/
def oldLicensee (key : Byte) : Option PublisherName :=
  if key = 0x01 then some .nintendo
  else if key = 0xFE then none
  else oldLicenseeOpen key

/-- `NEW_LICENSEE`, a partial map from a two-byte key, first character first (R60); `none` is a lookup miss. The facts of
R6: the key "01" (0x30, 0x31) has the quoted name, and every key with an entry has both bytes below 0x80 (D16). -/
def newLicensee (key0 key1 : Byte) : Option PublisherName :=
  if 0x80 ≤ key0 ∨ 0x80 ≤ key1 then none
  else if key0 = 0x30 ∧ key1 = 0x31 then some .nintendoResearchDevelopment1
  else newLicenseeOpen key0 key1

end Config
end Sys2Proof
end

