-- ==== Sys2Proof/Machine/State.lean ====
section
/-! DEFINITION. The state of HDV as plain data, the state tuple of R28, and beside it the host's side: the host-owned inputs
(R10), the actions the host is still to take (R155, R200) and what its last register read gave it (R53). -/

namespace Sys2Proof.Machine

/-- The result of a validator for the current record (R17, R19): the value of `LOGO_RES`, `HCK_RES`, `GCK_RES`. -/
inductive CheckResult where
  | notRun
  | pass
  | fail
  deriving DecidableEq, Repr

/-- The outcome of a command (R160). `NOP` has none. -/
inductive CmdOutcome where
  | ok
  | truncatedInput
  | logoMismatch
  | headerChecksumMismatch
  | globalChecksumMismatch
  | noHeader
  | reservedCommand
  deriving DecidableEq, Repr

/-- The header record, the 15 fields of R12 in the order of its table, each the raw bytes read from the ROM. -/
structure Header where
  /-- register 0, 0x0100-0x0103 -/
  entryPoint : Vector Byte 4
  /-- register 1, 0x0104-0x0133; the length 48 is part of the type (R85) -/
  nintendoLogo : Vector Byte 48
  /-- register 2, 0x0134-0x0143 -/
  title : Vector Byte 16
  /-- register 3, 0x013F-0x0142 -/
  manufacturerCode : Vector Byte 4
  /-- register 4, 0x0143 -/
  cgbFlag : Byte
  /-- register 5, 0x014B -/
  oldLicenseeCode : Byte
  /-- register 6, 0x0144-0x0145 -/
  newLicenseeCode : Vector Byte 2
  /-- register 7, 0x0146 -/
  sgbFlag : Byte
  /-- register 8, 0x0147 -/
  cartridgeType : Byte
  /-- register 9, 0x0148 -/
  romSize : Byte
  /-- register 10, 0x0149 -/
  ramSize : Byte
  /-- register 11, 0x014A -/
  destinationCode : Byte
  /-- register 12, 0x014C -/
  versionNumber : Byte
  /-- register 13, 0x014D -/
  headerChecksum : Byte
  /-- register 14, 0x014E-0x014F, big-endian (R36, R98) -/
  globalChecksum : Half
  deriving DecidableEq, Repr

/-- `CGB_CLASS` (R15, R56); the unused code 3 is not a value. -/
inductive CgbClass where
  | none
  | enhanced
  | only
  deriving DecidableEq, Repr

/-- `SGB_CLASS` (R15, R57). -/
inductive SgbClass where
  | unsupported
  | enhanced
  deriving DecidableEq, Repr

/-- `DEST_CLASS`: a region label of `DEST_MAP` or `DEST_UNKNOWN` (R15, R102). -/
inductive DestClass where
  | unknown
  | region (label : RegionLabel)
  deriving DecidableEq, Repr

/-- `LIC_SEL` (R15, R103). -/
inductive LicSel where
  | old
  | new
  deriving DecidableEq, Repr

/-- `LIC_NAME`: a table entry, or `UNKNOWN`, which is distinct from every entry (R6, R15, D15). -/
inductive LicName where
  | unknown
  | entry (name : PublisherName)
  deriving DecidableEq, Repr

/-- The registers of the read select, in the order of their numbers 0 to 22 (R12, R15, R17, R22, R53). -/
inductive Reg where
  | entryPoint
  | nintendoLogo
  | title
  | manufacturerCode
  | cgbFlag
  | oldLicenseeCode
  | newLicenseeCode
  | sgbFlag
  | cartridgeType
  | romSize
  | ramSize
  | destinationCode
  | versionNumber
  | headerChecksum
  | globalChecksum
  | cgbClass
  | sgbClass
  | destClass
  | licSel
  | licName
  | status
  | hckCalc
  | gckCalc
  deriving DecidableEq, Repr

/-- What a register read returns. -/
inductive RegValue where
  /-- an array field, element 0 first (R37) -/
  | bytes (bs : List Byte)
  | byte (b : Byte)
  | half (h : Half)
  | cgbClass (c : CgbClass)
  | sgbClass (c : SgbClass)
  | destClass (c : DestClass)
  | licSel (c : LicSel)
  | licName (n : LicName)
  deriving DecidableEq, Repr

/-- Everything the host can do to HDV (R200): reset (R190), present a command word (R16, R50), change the presented buffer
(R196) and read a register (R53). A buffer is a finite sequence of bytes; its length is `rom_len` (R10, R30). -/
inductive HostAction where
  | reset
  | command (cmd : BitVec 3)
  | present (bytes : List Byte)
  | read (sel : BitVec 5)
  deriving DecidableEq, Repr

/-- The presented ROM buffer: `len` is `rom_len`, and `cells` lists the bytes that are not 0x00, by offset. The canonical form
is `Memory.wf`; the bytes of a buffer and its canonical form determine each other (log entry 2). -/
structure Memory where
  len : Nat
  cells : List Host.Cell
  deriving DecidableEq, Repr

/-- The state of HDV: the whole state tuple of R28. What the host presents (`rom`, `rom_len`, `cmd`) is no part of it (R10). -/
structure Hdv where
  /-- `HDR`, absent while it holds no value (R11, R12); `HDR_VALID` is its presence (R18, R28) -/
  hdr : Option Header
  /-- `STATUS.LOGO_RES` (R17) -/
  logoRes : CheckResult
  /-- `STATUS.HCK_RES` (R17) -/
  hckRes : CheckResult
  /-- `STATUS.GCK_RES` (R17) -/
  gckRes : CheckResult
  /-- `STATUS.ERR_TRUNC`, sticky (R20) -/
  errTrunc : Bool
  /-- `STATUS.ERR_NOHDR`, sticky (R20) -/
  errNohdr : Bool
  /-- `STATUS.ERR_CMD`, sticky (R20) -/
  errCmd : Bool
  /-- `STATUS.LAST`, the outcome of the most recent command other than NOP (R21) -/
  last : CmdOutcome
  /-- `HCK_CALC`, absent while it holds no value (R22) -/
  hckCalc : Option Byte
  /-- `GCK_CALC`, absent while it holds no value (R22) -/
  gckCalc : Option Half
  deriving DecidableEq, Repr

/-- Why a register read is refused (U1, U2). -/
inductive ReadRefusal where
  /-- the register holds no value (R11, R198) -/
  | holdsNoValue (r : Reg)
  /-- the select is one of 23 to 31 (R53) -/
  | reservedSelect (sel : BitVec 5)
  deriving DecidableEq, Repr

/-- What the host got by its most recent register read: nothing yet, a value, or, where the read is refused, no result (R11,
R53). -/
inductive ReadResult where
  | notRead
  | value (v : RegValue)
  | refused (why : ReadRefusal)
  deriving DecidableEq, Repr

/-- The host's side of the interface, owned by the host and no state of HDV (R2, R10; log entry 1). -/
structure HostSide where
  /-- `rom` and `rom_len` as presented now (R10) -/
  rom : Memory
  /-- the actions the host takes next, the first one first (R155, R200) -/
  script : List HostAction
  /-- what the host's most recent register read gave it (R53) -/
  readData : ReadResult
  deriving DecidableEq, Repr

/-- HDV together with the host at its interface: the two agents of R2, of which the machine of the interface Host.Core is made.
`State.toHdv` is the state of HDV (R28). -/
structure State extends Hdv, HostSide
  deriving DecidableEq, Repr

/-- Why a step stops with a fault. -/
inductive Fault where
  /-- A read of the ROM buffer at an offset outside it. Raised by `Memory.read1` and `Memory.readN` (Machine/Ops.lean). R32:
  "if its types force one, that case must be a fault, never a value". Safe: no command ever raises it. -/
  | romOutOfBounds (offset count : Nat)
  deriving DecidableEq, Repr

/-- Why a step is refused: never. A register read that the spec refuses is a `ReadResult`, and the step goes on. -/
inductive Refusal where
  /-- An instruction without a meaning. Raised by no arm of `exec`: every command is modelled. Safe. -/
  | notModelled (mnemonic : String)
  deriving DecidableEq, Repr

/-- A buffer of length zero: what is presented before the host presents one (log entry 4). -/
def Memory.empty : Memory := { len := 0, cells := [] }

/-- The state of HDV right after reset (R27, R190): `HDR`, `HCK_CALC` and `GCK_CALC` hold no value and every field of `STATUS`
is 0. -/
def Hdv.reset : Hdv where
  hdr := none
  logoRes := .notRun
  hckRes := .notRun
  gckRes := .notRun
  errTrunc := false
  errNohdr := false
  errCmd := false
  last := .ok
  hckCalc := none
  gckCalc := none

/-- The host before its first action: no buffer is presented, no action is waiting and nothing has been read (log entry 4). -/
def HostSide.initial : HostSide where
  rom := Memory.empty
  script := []
  readData := .notRead

/-- The machine right after reset: HDV reset, and the host, which reset does not touch (R27), before its first action. -/
def State.reset : State where
  toHdv := Hdv.reset
  toHostSide := HostSide.initial

end Sys2Proof.Machine
end

