-- ==== Sys2Proof/Machine/Ops.lean ====
section
/-! DEFINITION. The named operations over the ROM buffer, over HDV's registers and over the host's side of the interface.
`Hdv.endWith` is the one operation by which a command ends with an outcome (R160, R170), the place of taking an exception;
there is no return from one (R171). -/

namespace Sys2Proof.Machine

/-! ### The ROM buffer (spec/20_memory.md) -/

/-- The byte listed at an offset, 0x00 where none is listed. -/
def cellByte : List Host.Cell → Nat → Byte
  | [], _ => 0
  | (k, b) :: rest, a => if k = a then b else cellByte rest a

/-- `rom[a]` for an offset below `rom_len`. -/
def Memory.byteAt (m : Memory) (a : Nat) : Byte := cellByte m.cells a

/-- Cells in canonical form from offset `lo` on: offsets strictly rising and below `hi`, no cell equal to the 0x00 that an
unlisted offset reads as. -/
def cellsWf (lo hi : Nat) : List Host.Cell → Bool
  | [] => true
  | (k, b) :: rest => decide (lo ≤ k) && decide (k < hi) && (b != 0) && cellsWf (k + 1) hi rest

/-- The canonical form of a buffer. -/
def Memory.wf (m : Memory) : Bool := cellsWf 0 m.len m.cells

/-- The cells of a sequence of bytes whose first byte lies at offset `i`. -/
def cellsOf : Nat → List Byte → List Host.Cell
  | _, [] => []
  | i, b :: rest => if b = 0 then cellsOf (i + 1) rest else (i, b) :: cellsOf (i + 1) rest

/-- The buffer that a finite sequence of bytes is (R10, R30). -/
def Memory.ofBytes (bytes : List Byte) : Memory := { len := bytes.length, cells := cellsOf 0 bytes }

/-- The finite sequence of bytes that a buffer is. -/
def Memory.toBytes (m : Memory) : List Byte := (List.range m.len).map m.byteAt

/-- The `n` bytes from offset `a` on, in ascending offset order (R37). -/
def Memory.slice (m : Memory) (a n : Nat) : Vector Byte n :=
  ⟨((List.range n).map fun i => m.byteAt (a + i)).toArray, by simp⟩

/-- `MemRead(a, 1)` (R31): defined for `a < rom_len` only; outside, a fault and never a value (R32). -/
def Memory.read1 (m : Memory) (a : Nat) : Except Fault Byte :=
  if a < m.len then .ok (m.byteAt a) else .error (.romOutOfBounds a 1)

/-- `MemRead(a, n)` (R31): defined for `a + n ≤ rom_len` only; outside, a fault and never a value (R32). R31 gives it for `n ≥ 1`;
that `n = 0` answers the empty array where `a ≤ rom_len` and the fault elsewhere is the model's (DESIGN CHOICE, log entry 19). -/
def Memory.readN (m : Memory) (a n : Nat) : Except Fault (Vector Byte n) :=
  if a + n ≤ m.len then .ok (m.slice a n) else .error (.romOutOfBounds a n)

/-! ### HDV's registers -/

/-- What a step of HDV answers. -/
abbrev HdvOutcome := Host.Outcome Hdv Fault Refusal

/-- End a command with an outcome: write `LAST`, and set the sticky flag that belongs to the outcome, if one does (R20, R21,
R160). Nothing else: no control transfer, no saved state (R170). -/
def Hdv.endWith (o : CmdOutcome) (d : Hdv) : Hdv :=
  { d with
    last := o
    errTrunc := d.errTrunc || o == .truncatedInput
    errNohdr := d.errNohdr || o == .noHeader
    errCmd := d.errCmd || o == .reservedCommand }

/-- Write `HDR` whole, or leave it without a value; the three results go back to `NOT_RUN` and the two computed checksums hold
no value, since they no longer describe `HDR` (R13, R19, R81, R82). -/
def Hdv.setRecord (h : Option Header) (d : Hdv) : Hdv :=
  { d with
    hdr := h
    logoRes := .notRun
    hckRes := .notRun
    gckRes := .notRun
    hckCalc := none
    gckCalc := none }

/-- Write `LOGO_RES` (R120). -/
def Hdv.setLogo (r : CheckResult) (d : Hdv) : Hdv := { d with logoRes := r }

/-- Write `HCK_CALC` and `HCK_RES` (R134). -/
def Hdv.setHck (x : Byte) (r : CheckResult) (d : Hdv) : Hdv := { d with hckCalc := some x, hckRes := r }

/-- Write `GCK_CALC` and `GCK_RES` (R139). -/
def Hdv.setGck (x : Half) (r : CheckResult) (d : Hdv) : Hdv := { d with gckCalc := some x, gckRes := r }

/-- A validator needs a record: without one it ends with `NoHeader` and does nothing else (R133, R138, R165, R168). -/
def Hdv.withRecord (d : Hdv) (k : Header → HdvOutcome) : HdvOutcome :=
  match d.hdr with
  | none => .next (d.endWith .noHeader)
  | some h => k h

/-- Go on with what was read from the buffer, or stop with the fault of the read (R32). -/
def onRead {α : Type} (r : Except Fault α) (k : α → Hdv) : HdvOutcome :=
  match r with
  | .ok a => .next (k a)
  | .error f => .fault f

/-! ### The host's side of the interface (R200) -/

/-- Another state of HDV; the host's side is left alone. -/
def State.setHdv (d : Hdv) (s : State) : State := { s with toHdv := d }

/-- What HDV does with the presented buffer, seen from HDV and host together: the host's side is left alone (R2, R33). -/
def State.onHdv (s : State) (f : Memory → Hdv → HdvOutcome) : Host.Outcome State Fault Refusal :=
  match f s.rom s.toHdv with
  | .next d => .next (s.setHdv d)
  | .fault e => .fault e
  | .refused r => .refused r

/-- The host takes its next action: the head of its script, with the rest left to take. -/
def State.takeAction (s : State) : Option (HostAction × State) :=
  match s.script with
  | [] => none
  | a :: rest => some (a, { s with script := rest })

/-- HDV with nothing presented to it: idle, nothing changes (R150; log entry 5). -/
def State.idle (s : State) : State := s

/-- The reset event (R190): HDV goes to the reset state; the host-owned part is left alone (R191). -/
def State.applyReset (s : State) : State := s.setHdv Hdv.reset

/-- The host presents another buffer (R196): nothing of HDV changes (R43). -/
def State.presentBuffer (bytes : List Byte) (s : State) : State := { s with rom := Memory.ofBytes bytes }

/-- The host receives what a register read gives it, a value or a refusal: nothing of HDV changes (R35, R53). -/
def State.receive (r : ReadResult) (s : State) : State := { s with readData := r }

/-- Put a command word before everything the host is still to do. -/
def State.placeCommand (c : BitVec 3) (s : State) : State := { s with script := .command c :: s.script }

end Sys2Proof.Machine
end

