-- ==== Sys2Proof/Machine/Checksum.lean ====
section
/-! DEFINITION. The checksum unit: the two checksum functions and the commands VHCK and VGCK (spec/42_checksum.md). The running
value and the scan index live inside one step only (R24, R25). -/

namespace Sys2Proof.Machine

/-- One step of the header checksum, with 8-bit wraparound (R130, R141). -/
def hckStep (x b : Byte) : Byte := x - b - 1

/-- One step of the global checksum: the byte zero-extended, 16-bit wraparound (R135, R141). -/
def gckStep (x : Half) (b : Byte) : Half := x + b.setWidth 16

/-- The loop of R130 over `n` bytes from offset `i` on, with the running value `x`. -/
def hckFrom (m : Memory) : Nat → Nat → Byte → Except Fault Byte
  | 0, _, x => .ok x
  | n + 1, i, x => do
    let b ← m.read1 i
    hckFrom m n (i + 1) (hckStep x b)

/-- The header checksum: the 25 bytes 0x0134 to 0x014C, the running value starting at 0 (R130). -/
def hck (m : Memory) : Except Fault Byte := hckFrom m Config.hckSpan 0x0134 0

/-- The two offsets of the stored global checksum, which the sum leaves out (R135). -/
def isGlobalChecksumOffset (i : Nat) : Bool := i == 0x014E || i == 0x014F

/-- The loop of R135 over `n` offsets from `i` on, with the running value `x`. -/
def gckFrom (m : Memory) : Nat → Nat → Half → Except Fault Half
  | 0, _, x => .ok x
  | n + 1, i, x =>
    if isGlobalChecksumOffset i then gckFrom m n (i + 1) x
    else do
      let b ← m.read1 i
      gckFrom m n (i + 1) (gckStep x b)

/-- The global checksum: every byte of the presented buffer but the two at 0x014E and 0x014F (R135). -/
def gck (m : Memory) : Except Fault Half := gckFrom m m.len 0 0

/-- A checksum command needs a buffer of at least `MIN_LEN` bytes, tested after the record (R133, R138, R168). -/
def Hdv.withBuffer (d : Hdv) (rom : Memory) (k : HdvOutcome) : HdvOutcome :=
  if rom.len < Config.minLen then .next (d.endWith .truncatedInput) else k

/-- Write the computed header checksum and the result of its comparison with the stored one, and end the command (R134). -/
def Hdv.concludeHck (h : Header) (x : Byte) (d : Hdv) : Hdv :=
  if x = h.headerChecksum then (d.setHck x .pass).endWith .ok
  else (d.setHck x .fail).endWith .headerChecksumMismatch

/-- Write the computed global checksum and the result of its comparison with the stored one, and end the command (R139). -/
def Hdv.concludeGck (h : Header) (x : Half) (d : Hdv) : Hdv :=
  if x = h.globalChecksum then (d.setGck x .pass).endWith .ok
  else (d.setGck x .fail).endWith .globalChecksumMismatch

/-- VHCK (R132 to R134): computed from the buffer presented now, stored value from `HDR`. -/
def runVhck (rom : Memory) (d : Hdv) : HdvOutcome :=
  d.withRecord fun h => d.withBuffer rom (onRead (hck rom) fun x => d.concludeHck h x)

/-- VHCK (R134). -/
def execVhck (s : State) : Host.Outcome State Fault Refusal := s.onHdv runVhck

/-- VGCK (R137 to R139): computed from the buffer presented now, stored value from `HDR`. -/
def runVgck (rom : Memory) (d : Hdv) : HdvOutcome :=
  d.withRecord fun h => d.withBuffer rom (onRead (gck rom) fun x => d.concludeGck h x)

/-- VGCK (R139). -/
def execVgck (s : State) : Host.Outcome State Fault Refusal := s.onHdv runVgck

end Sys2Proof.Machine
end

