-- ==== Sys2Proof/Machine/Control.lean ====
section
/-! DEFINITION. The commands that read no register and no memory: NOP (R151) and the three reserved codes (R152). Each command is
a transition of HDV, `run…`, with the presented buffer as an argument (R10, R28), and its meaning `exec…` is that transition in
the state of HDV and host together. -/

namespace Sys2Proof.Machine

/-- NOP (R151): no write at all, `LAST` included; it ends with no outcome. -/
def runNop (_ : Memory) (d : Hdv) : HdvOutcome := .next d

/-- What every reserved code does (R152): end with `ReservedCommand`; the buffer is not read. -/
def runReserved (_ : Memory) (d : Hdv) : HdvOutcome := .next (d.endWith .reservedCommand)

/-- NOP (R151). -/
def execNop (s : State) : Host.Outcome State Fault Refusal := s.onHdv runNop

/-- The reserved code 0b101 (R152). -/
def execReserved5 (s : State) : Host.Outcome State Fault Refusal := s.onHdv runReserved

/-- The reserved code 0b110 (R152). -/
def execReserved6 (s : State) : Host.Outcome State Fault Refusal := s.onHdv runReserved

/-- The reserved code 0b111 (R152). -/
def execReserved7 (s : State) : Host.Outcome State Fault Refusal := s.onHdv runReserved

end Sys2Proof.Machine
end

