-- ==== Sys2Proof/Machine/Operands.lean ====
section
/-! DEFINITION. The operand forms: the fixed-offset loads of the byte-lane mux, one per header field (R84 to R98, R109), the
derived views of the record (R100 to R106) and the code values of the header (R56 to R62). -/

namespace Sys2Proof.Machine

/-! ### The 15 field extractions (spec/40_decode.md section 2) -/

/-- R84 -/
def loadEntryPoint (m : Memory) : Except Fault (Vector Byte 4) := m.readN 0x0100 4

/-- R85 -/
def loadNintendoLogo (m : Memory) : Except Fault (Vector Byte 48) := m.readN 0x0104 48

/-- R86: always the full 16 bytes, no terminator, no padding removed -/
def loadTitle (m : Memory) : Except Fault (Vector Byte 16) := m.readN 0x0134 16

/-- R87: the same ROM bytes as `title[11..14]` (R14) -/
def loadManufacturerCode (m : Memory) : Except Fault (Vector Byte 4) := m.readN 0x013F 4

/-- R88: the same ROM byte as `title[15]` (R14) -/
def loadCgbFlag (m : Memory) : Except Fault Byte := m.read1 0x0143

/-- R89 -/
def loadOldLicenseeCode (m : Memory) : Except Fault Byte := m.read1 0x014B

/-- R90 -/
def loadNewLicenseeCode (m : Memory) : Except Fault (Vector Byte 2) := m.readN 0x0144 2

/-- R91 -/
def loadSgbFlag (m : Memory) : Except Fault Byte := m.read1 0x0146

/-- R92 -/
def loadCartridgeType (m : Memory) : Except Fault Byte := m.read1 0x0147

/-- R93 -/
def loadRomSize (m : Memory) : Except Fault Byte := m.read1 0x0148

/-- R94 -/
def loadRamSize (m : Memory) : Except Fault Byte := m.read1 0x0149

/-- R95 -/
def loadDestinationCode (m : Memory) : Except Fault Byte := m.read1 0x014A

/-- R96 -/
def loadVersionNumber (m : Memory) : Except Fault Byte := m.read1 0x014C

/-- R97: the stored header checksum -/
def loadHeaderChecksum (m : Memory) : Except Fault Byte := m.read1 0x014D

/-- Two bytes as one number, the byte at the lower offset in bits 15:8 (R36). -/
def bigEndian (high low : Byte) : Half := high ++ low

/-- R98: the stored global checksum, big-endian (R36, R55) -/
def loadGlobalChecksum (m : Memory) : Except Fault Half := do
  let high ← m.read1 0x014E
  let low ← m.read1 0x014F
  return bigEndian high low

/-- The record of the presented buffer, all 15 fields (R83). -/
def loadHeader (m : Memory) : Except Fault Header := do
  let entryPoint ← loadEntryPoint m
  let nintendoLogo ← loadNintendoLogo m
  let title ← loadTitle m
  let manufacturerCode ← loadManufacturerCode m
  let cgbFlag ← loadCgbFlag m
  let oldLicenseeCode ← loadOldLicenseeCode m
  let newLicenseeCode ← loadNewLicenseeCode m
  let sgbFlag ← loadSgbFlag m
  let cartridgeType ← loadCartridgeType m
  let romSize ← loadRomSize m
  let ramSize ← loadRamSize m
  let destinationCode ← loadDestinationCode m
  let versionNumber ← loadVersionNumber m
  let headerChecksum ← loadHeaderChecksum m
  let globalChecksum ← loadGlobalChecksum m
  return { entryPoint, nintendoLogo, title, manufacturerCode, cgbFlag, oldLicenseeCode, newLicenseeCode, sgbFlag,
           cartridgeType, romSize, ramSize, destinationCode, versionNumber, headerChecksum, globalChecksum }

/-- An array field flattened to a number as a build may do: element 0 takes the most significant byte (R37). -/
def flattenBytes (bytes : List Byte) : Nat := bytes.foldl (fun n b => n * 256 + b.toNat) 0

/-! ### The categorical classes and the licensee (spec/40_decode.md sections 3 and 4) -/

/-- R100: on the whole byte, total -/
def cgbClass (v : Byte) : CgbClass :=
  if v = 0x80 then .enhanced else if v = 0xC0 then .only else .none

/-- R101: on the whole byte, total -/
def sgbClass (v : Byte) : SgbClass := if v = 0x03 then .enhanced else .unsupported

/-- R102: total for every `DEST_MAP` -/
def destClass (v : Byte) : DestClass :=
  match Config.destMap v with
  | some label => .region label
  | none => .unknown

/-- R103: the selection, made from the sentinel alone and before any lookup -/
def Header.licSel (h : Header) : LicSel := if h.oldLicenseeCode = Config.licSentinel then .new else .old

/-- A lookup result as a name: a miss is `UNKNOWN` (R104, R105). -/
def licNameOf : Option PublisherName → LicName
  | some n => .entry n
  | none => .unknown

/-- R104 to R106: exactly one of the two tables is consulted -/
def Header.licName (h : Header) : LicName :=
  match h.licSel with
  | .new => licNameOf (Config.newLicensee h.newLicenseeCode[0] h.newLicenseeCode[1])
  | .old => licNameOf (Config.oldLicensee h.oldLicenseeCode)

/-! ### Sizes that codes stand for, computed outside HDV -/

/-- R61: the ROM size in bytes that a `rom_size` code encodes, 32 KiB times 2 to the code, for every code; not a register -/
def romBytes (v : Byte) : Nat := 32768 * 2 ^ v.toNat

/-- R62: the RAM size that a `ram_size` code encodes, by the OPEN table -/
def ramBytes (v : Byte) : Option Nat := Config.ramSizeMap v

end Sys2Proof.Machine
end

