-- ==== Sys2Proof/Machine/HeaderDecode.lean ====
section
/-! DEFINITION. The command DECODE, the fixed-offset byte-lane mux (spec/40_decode.md). -/

namespace Sys2Proof.Machine

/-- DECODE (R80 to R83): a buffer shorter than `MIN_LEN` leaves no record and ends with `TruncatedInput`; any other buffer gives
a new record, whole, and ends with `OK`. -/
def runDecode (rom : Memory) (d : Hdv) : HdvOutcome :=
  if rom.len < Config.minLen then .next ((d.setRecord none).endWith .truncatedInput)
  else onRead (loadHeader rom) fun h => (d.setRecord (some h)).endWith .ok

/-- DECODE (R80). -/
def execDecode (s : State) : Host.Outcome State Fault Refusal := s.onHdv runDecode

end Sys2Proof.Machine
end

