-- ==== Sys2Proof/Machine/Logo.lean ====
section
/-! DEFINITION. The command VLOGO, the signature matcher, and the hexadecimal rendering through which the source states the
comparison (spec/41_logo.md). -/

namespace Sys2Proof.Machine

/-- Write the result of the comparison of all 48 bytes and end the command (R120). -/
def Hdv.concludeLogo (h : Header) (d : Hdv) : Hdv :=
  if h.nintendoLogo = Config.logoRef then (d.setLogo .pass).endWith .ok
  else (d.setLogo .fail).endWith .logoMismatch

/-- VLOGO (R120): on the record, not on the buffer. -/
def runVlogo (_ : Memory) (d : Hdv) : HdvOutcome := d.withRecord fun h => .next (d.concludeLogo h)

/-- VLOGO (R120). -/
def execVlogo (s : State) : Host.Outcome State Fault Refusal := s.onHdv runVlogo

/-! ### The hexadecimal rendering (R121 to R123); HDV does not contain it -/

/-- The sixteen hexadecimal digits in order, upper case (R121). -/
def hexDigits : List Char := ['0', '1', '2', '3', '4', '5', '6', '7', '8', '9', 'A', 'B', 'C', 'D', 'E', 'F']

/-- A hexadecimal digit, upper case (R121). -/
def hexDigit (n : BitVec 4) : Char := hexDigits[n.toFin]

/-- The value of an upper-case hexadecimal digit. -/
def hexValue : Char → Option (BitVec 4)
  | '0' => some 0x0 | '1' => some 0x1 | '2' => some 0x2 | '3' => some 0x3
  | '4' => some 0x4 | '5' => some 0x5 | '6' => some 0x6 | '7' => some 0x7
  | '8' => some 0x8 | '9' => some 0x9 | 'A' => some 0xA | 'B' => some 0xB
  | 'C' => some 0xC | 'D' => some 0xD | 'E' => some 0xE | 'F' => some 0xF
  | _ => none

/-- `hex_render` (R121): two digits a byte, high nibble first, one space between consecutive pairs.
R121 gives it on arrays of one byte or more; the empty list for the empty array is the model's (DESIGN CHOICE, log entry 12). -/
def hexRender : List Byte → List Char
  | [] => []
  | [b] => [hexDigit (b.extractLsb' 4 4), hexDigit (b.extractLsb' 0 4)]
  | b :: rest => hexDigit (b.extractLsb' 4 4) :: hexDigit (b.extractLsb' 0 4) :: ' ' :: hexRender rest

/-- The byte two digits stand for, `16 * digit(hi) + digit(lo)` (R123). -/
def hexByte (hi lo : Char) : Option Byte :=
  match hexValue hi, hexValue lo with
  | some h, some l => some (h ++ l)
  | _, _ => none

/-- `hex_parse` (R123), a partial function: it answers on strings of the form of R121 and gives no value elsewhere (N8). -/
def hexParse : List Char → Option (List Byte)
  | [hi, lo] => (hexByte hi lo).map fun b => [b]
  | hi :: lo :: ' ' :: rest =>
    match hexByte hi lo, hexParse rest with
    | some b, some bs => some (b :: bs)
    | _, _ => none
  | _ => none

end Sys2Proof.Machine
end

