-- ==== Sys2Proof/Machine/HdvStep.lean ====
section
/-! DEFINITION. The step of HDV alone: the command word, the buffer and its length are arguments, and only the state tuple of R28
goes from step to step (R10, R28, R150). -/

namespace Sys2Proof.Machine

/-- The transition of HDV that a command is, one row per code (R150). -/
def runCommand (i : Instr) (rom : Memory) (d : Hdv) : HdvOutcome :=
  match i with
  | .nop => runNop rom d
  | .decode => runDecode rom d
  | .vlogo => runVlogo rom d
  | .vhck => runVhck rom d
  | .vgck => runVgck rom d
  | .reserved5 => runReserved rom d
  | .reserved6 => runReserved rom d
  | .reserved7 => runReserved rom d

/-- "A step takes `(cmd, rom, rom_len)` and the state to the next state" (R28). -/
def hdvStep (cmd : BitVec 3) (rom : Memory) (d : Hdv) : HdvOutcome := runCommand (decodeCommand cmd) rom d

end Sys2Proof.Machine
end

