-- ==== Sys2Proof/Machine/Flags.lean ====
section
/-! DEFINITION. The flags: the numeric codes of the enumerations and the 16-bit register `STATUS` made of them (R17, R15,
R160), with the fields a reader of the word takes out of it. -/

namespace Sys2Proof.Machine

/-- The 2-bit code of a result field (R17); 3 is no code. -/
def CheckResult.code : CheckResult → BitVec 2
  | .notRun => 0
  | .pass => 1
  | .fail => 2

/-- The 3-bit code of an outcome (R160); 7 is no code. -/
def CmdOutcome.code : CmdOutcome → BitVec 3
  | .ok => 0
  | .truncatedInput => 1
  | .logoMismatch => 2
  | .headerChecksumMismatch => 3
  | .globalChecksumMismatch => 4
  | .noHeader => 5
  | .reservedCommand => 6

/-- The 2-bit code of `CGB_CLASS` (R15); 3 is no code. -/
def CgbClass.code : CgbClass → BitVec 2
  | .none => 0
  | .enhanced => 1
  | .only => 2

/-- The 1-bit code of `SGB_CLASS` (R15). -/
def SgbClass.code : SgbClass → BitVec 1
  | .unsupported => 0
  | .enhanced => 1

/-- The 1-bit code of `LIC_SEL` (R15). -/
def LicSel.code : LicSel → BitVec 1
  | .old => 0
  | .new => 1

/-- `STATUS.HDR_VALID`: `HDR` holds a record (R18, R28). -/
def Hdv.hdrValid (d : Hdv) : Bool := d.hdr.isSome

/-- `STATUS` (R17): bits 15:13 read as 0, then `LAST`, `ERR_CMD`, `ERR_NOHDR`, `ERR_TRUNC`, `GCK_RES`, `HCK_RES`, `LOGO_RES`
and, in bit 0, `HDR_VALID`. -/
def Hdv.status (d : Hdv) : Half :=
  0#3 ++ d.last.code ++ BitVec.ofBool d.errCmd ++ BitVec.ofBool d.errNohdr ++ BitVec.ofBool d.errTrunc ++
    d.gckRes.code ++ d.hckRes.code ++ d.logoRes.code ++ BitVec.ofBool d.hdrValid

end Sys2Proof.Machine
end

