-- ==== Sys2Proof/Machine/ReadPort.lean ====
section
/-! DEFINITION. The host's register reads through the 5-bit select (R53): the output side of the byte-lane mux. -/

namespace Sys2Proof.Machine

/-- The registers in the order of their numbers: 0 to 14 the fields of `HDR`, 15 to 19 the views, 20 `STATUS`, 21 `HCK_CALC`,
22 `GCK_CALC` (R12, R15, R17, R22, R53). -/
def Reg.byNumber : List Reg :=
  [.entryPoint, .nintendoLogo, .title, .manufacturerCode, .cgbFlag, .oldLicenseeCode, .newLicenseeCode, .sgbFlag,
   .cartridgeType, .romSize, .ramSize, .destinationCode, .versionNumber, .headerChecksum, .globalChecksum,
   .cgbClass, .sgbClass, .destClass, .licSel, .licName, .status, .hckCalc, .gckCalc]

/-- The register a select names; 23 to 31 are reserved (R53). -/
def regOfSelect (sel : BitVec 5) : Option Reg := Reg.byNumber[sel.toNat]?

/-- The value a register holds, if it holds one (R11): the read function of U1, which answers `none` where it does not. -/
def Hdv.regValue (d : Hdv) : Reg → Option RegValue
  | .entryPoint => d.hdr.map fun h => .bytes h.entryPoint.toList
  | .nintendoLogo => d.hdr.map fun h => .bytes h.nintendoLogo.toList
  | .title => d.hdr.map fun h => .bytes h.title.toList
  | .manufacturerCode => d.hdr.map fun h => .bytes h.manufacturerCode.toList
  | .cgbFlag => d.hdr.map fun h => .byte h.cgbFlag
  | .oldLicenseeCode => d.hdr.map fun h => .byte h.oldLicenseeCode
  | .newLicenseeCode => d.hdr.map fun h => .bytes h.newLicenseeCode.toList
  | .sgbFlag => d.hdr.map fun h => .byte h.sgbFlag
  | .cartridgeType => d.hdr.map fun h => .byte h.cartridgeType
  | .romSize => d.hdr.map fun h => .byte h.romSize
  | .ramSize => d.hdr.map fun h => .byte h.ramSize
  | .destinationCode => d.hdr.map fun h => .byte h.destinationCode
  | .versionNumber => d.hdr.map fun h => .byte h.versionNumber
  | .headerChecksum => d.hdr.map fun h => .byte h.headerChecksum
  | .globalChecksum => d.hdr.map fun h => .half h.globalChecksum
  | .cgbClass => d.hdr.map fun h => .cgbClass (Sys2Proof.Machine.cgbClass h.cgbFlag)
  | .sgbClass => d.hdr.map fun h => .sgbClass (Sys2Proof.Machine.sgbClass h.sgbFlag)
  | .destClass => d.hdr.map fun h => .destClass (Sys2Proof.Machine.destClass h.destinationCode)
  | .licSel => d.hdr.map fun h => .licSel h.licSel
  | .licName => d.hdr.map fun h => .licName h.licName
  | .status => some (.half d.status)
  | .hckCalc => d.hckCalc.map .byte
  | .gckCalc => d.gckCalc.map .half

/-- A host read (R53): the value of the register, or a refusal where the select is reserved (U2) or the register holds no value
(U1, R11, R198), so that the host gets no result. Either way HDV stays as it is (R35) and goes
on (DEDUCED, log entry 10). -/
def Hdv.readRegister (d : Hdv) (sel : BitVec 5) : ReadResult :=
  match regOfSelect sel with
  | none => .refused (.reservedSelect sel)
  | some r =>
    match d.regValue r with
    | none => .refused (.holdsNoValue r)
    | some v => .value v

end Sys2Proof.Machine
end

