-- ==== Sys2Proof/Machine/Step.lean ====
section
/-! DEFINITION. One step: the host takes its next action (R155, R200). A command runs as one atomic transition (R150).
The step of HDV alone, with the command word and the buffer as arguments (R10, R28), is `hdvStep`. -/

namespace Sys2Proof.Machine

/-- One step. With no action waiting, HDV is idle (R150). -/
def step (s : State) : Host.Outcome State Fault Refusal :=
  match s.takeAction with
  | none => .next s.idle
  | some (.reset, t) => .next t.applyReset
  | some (.command c, t) => exec (decodeCommand c) t
  | some (.present bytes, t) => .next (t.presentBuffer bytes)
  | some (.read sel, t) => .next (t.receive (t.readRegister sel))

/-- The state with the command of a table word as the host's next action; a word that carries no command is not placed. -/
def State.withFetchWord (s : State) (nbits w : Nat) : State :=
  match commandOfTableWord nbits w with
  | some c => s.placeCommand c
  | none => s

end Sys2Proof.Machine
end

