-- ==== Sys2Proof/Machine/Assembler.lean ====
section
/-! DEFINITION. The assembler form of host command sequences (R66) and the pseudo-instruction CHECK (R67): what each line stands
for as host actions, and the reading of its text. -/

namespace Sys2Proof.Machine

/-- One item of a listing (R66, R67). -/
inductive AsmItem where
  | command (i : Instr)
  /-- the pseudo-instruction CHECK (R67) -/
  | check
  /-- `.RESET` -/
  | dotReset
  /-- `.ROM name`, with the buffer the name stands for -/
  | dotRom (bytes : List Byte)
  /-- `.CMD 0bnnn`, the raw 3-bit word -/
  | dotCmd (cmd : BitVec 3)
  deriving DecidableEq, Repr

/-- What the host does at one item; CHECK expands to VLOGO, VHCK, VGCK in that order (R67). -/
def AsmItem.actions : AsmItem → List HostAction
  | .command i => [.command (encodeCommand i)]
  | .check => [.command (encodeCommand .vlogo), .command (encodeCommand .vhck), .command (encodeCommand .vgck)]
  | .dotReset => [.reset]
  | .dotRom bytes => [.present bytes]
  | .dotCmd cmd => [.command cmd]

/-- What the host does through a listing, line after line (R42, R66). -/
def assemble (items : List AsmItem) : List HostAction := items.flatMap AsmItem.actions

/-- A line without its comment: everything before the first `;` (R66). -/
def withoutComment (line : List Char) : List Char := line.takeWhile (· != ';')

/-- The words of a line; words are separated by spaces. `word` is the word being read. -/
def wordsFrom (word : List Char) : List Char → List (List Char)
  | [] => if word.isEmpty then [] else [word]
  | c :: rest =>
    if c == ' ' then
      if word.isEmpty then wordsFrom [] rest else word :: wordsFrom [] rest
    else wordsFrom (word ++ [c]) rest

/-- A binary digit. -/
def binaryDigit : Char → Option (BitVec 1)
  | '0' => some 0
  | '1' => some 1
  | _ => none

/-- A raw command word `0bnnn` (R66). -/
def parseRawWord : List Char → Option (BitVec 3)
  | ['0', 'b', x, y, z] =>
    match binaryDigit x, binaryDigit y, binaryDigit z with
    | some a, some b, some c => some (a ++ b ++ c)
    | _, _, _ => none
  | _ => none

/-- The item of a line's words, in upper case as R66 writes them; `none` where they are no item. `romNamed` gives the buffer a
name stands for. -/
def parseWords (romNamed : List Char → Option (List Byte)) : List (List Char) → Option AsmItem
  | [['N', 'O', 'P']] => some (.command .nop)
  | [['D', 'E', 'C', 'O', 'D', 'E']] => some (.command .decode)
  | [['V', 'L', 'O', 'G', 'O']] => some (.command .vlogo)
  | [['V', 'H', 'C', 'K']] => some (.command .vhck)
  | [['V', 'G', 'C', 'K']] => some (.command .vgck)
  | [['C', 'H', 'E', 'C', 'K']] => some .check
  | [['.', 'R', 'E', 'S', 'E', 'T']] => some .dotReset
  | [['.', 'R', 'O', 'M'], name] => (romNamed name).map .dotRom
  | [['.', 'C', 'M', 'D'], word] => (parseRawWord word).map .dotCmd
  | _ => none

/-- One line of a listing (R66): `some []` for a blank or comment line, `some [item]` for an item, `none` for any other text. -/
def parseLine (romNamed : List Char → Option (List Byte)) (line : List Char) : Option (List AsmItem) :=
  match wordsFrom [] (withoutComment line) with
  | [] => some []
  | words => (parseWords romNamed words).map fun item => [item]

end Sys2Proof.Machine
end

