-- ==== Sys2Proof/Machine/Instances.lean ====
section
/-! DEFINITION. Several instances of HDV (R180): each has its own complete state, and they share only the configuration. -/

namespace Sys2Proof.Machine

/-- One step of instance `k` among several; every other instance keeps its state. There is no instance beyond the list, so
such a step changes nothing. -/
def stepOne (k : Nat) (instances : List State) : Host.Outcome (List State) Fault Refusal :=
  match instances[k]? with
  | none => .next instances
  | some s =>
    match step s with
    | .next t => .next (instances.set k t)
    | .fault f => .fault f
    | .refused r => .refused r

end Sys2Proof.Machine
end

