-- ==== Sys2Proof/Safety.lean ====
section
/-! DEFINITION. What claims about a run are stated in: the invariants of R28, R14 and R19, the named premises of R201, and
sequences of commands over one state. -/

namespace Sys2Proof.Machine

/-- The overlap identities of a record (R14): `manufacturer_code` is `title[11..14]` and `cgb_flag` is `title[15]`. -/
def Header.overlaps (h : Header) : Prop :=
  (∀ i (hi : i < 4), h.manufacturerCode[i] = h.title[11 + i]) ∧ h.cgbFlag = h.title[15]

/-- The invariants every reachable state satisfies (R28, R14), and the canonical form of the buffer. -/
structure State.Inv (s : State) : Prop where
  romCanonical : s.rom.wf = true
  hckCalcPresent : s.hckCalc.isSome = true ↔ s.hckRes ≠ .notRun
  gckCalcPresent : s.gckCalc.isSome = true ↔ s.gckRes ≠ .notRun
  noRecordNoResult : s.hdr = none → s.logoRes = .notRun ∧ s.hckRes = .notRun ∧ s.gckRes = .notRun
  recordOverlaps : ∀ h, s.hdr = some h → h.overlaps

/-- Every result that is not `NOT_RUN` describes the record in `HDR` (R19), and the outcome in `LAST` agrees with the sticky
flags and the result fields (R160). -/
structure Hdv.ResultsDescribeRecord (d : Hdv) : Prop where
  logoPass : d.logoRes = .pass → ∃ h, d.hdr = some h ∧ h.nintendoLogo = Config.logoRef
  logoFail : d.logoRes = .fail → ∃ h, d.hdr = some h ∧ h.nintendoLogo ≠ Config.logoRef
  hckPass : d.hckRes = .pass → ∃ h, d.hdr = some h ∧ d.hckCalc = some h.headerChecksum
  hckFail : d.hckRes = .fail → ∃ h x, d.hdr = some h ∧ d.hckCalc = some x ∧ x ≠ h.headerChecksum
  gckPass : d.gckRes = .pass → ∃ h, d.hdr = some h ∧ d.gckCalc = some h.globalChecksum
  gckFail : d.gckRes = .fail → ∃ h x, d.hdr = some h ∧ d.gckCalc = some x ∧ x ≠ h.globalChecksum
  lastTruncated : d.last = .truncatedInput → d.errTrunc = true
  lastNoHeader : d.last = .noHeader → d.errNohdr = true
  lastReserved : d.last = .reservedCommand → d.errCmd = true
  lastLogo : d.last = .logoMismatch → d.logoRes = .fail
  lastHck : d.last = .headerChecksumMismatch → d.hckRes = .fail
  lastGck : d.last = .globalChecksumMismatch → d.gckRes = .fail

/-- `P_RESET`: HDV's part of the state is that of R27. -/
def State.pReset (s : State) : Prop := s.toHdv = Hdv.reset

/-- `P_NOFAULT`: no fault recorded (R20, R201). -/
def Hdv.pNoFault (d : Hdv) : Prop := d.errTrunc = false ∧ d.errNohdr = false ∧ d.errCmd = false

/-- From a point of a run on, where `decoded` is the buffer presented to the most recent DECODE since reset (none before one)
and `rom` the buffer presented now: every validator is presented the buffer that DECODE was (R201, R196). That a later DECODE
or a reset begins anew is DEDUCED (log entry 18). -/
def sameRomFrom (decoded : Option Memory) (rom : Memory) : List HostAction → Prop
  | [] => True
  | .reset :: rest => sameRomFrom none rom rest
  | .present bytes :: rest => sameRomFrom decoded (Memory.ofBytes bytes) rest
  | .read _ :: rest => sameRomFrom decoded rom rest
  | .command c :: rest =>
    match decodeCommand c with
    | .decode => sameRomFrom (some rom) rom rest
    | .vlogo | .vhck | .vgck => (∀ m, decoded = some m → rom = m) ∧ sameRomFrom decoded rom rest
    | .nop | .reserved5 | .reserved6 | .reserved7 => sameRomFrom decoded rom rest

/-- `P_SAME_ROM` of the run that starts here: the same `rom` and `rom_len` are presented to DECODE and to every validator after
it (R201). The run starts without a record or with a reset, so the DECODE that a validator follows is in the run; a state inside
a run is spoken of by `sameRomFrom`. -/
def State.pSameRom (s : State) : Prop :=
  (s.hdr = none ∨ ∃ rest, s.script = .reset :: rest) ∧ sameRomFrom none s.rom s.script

/-- What DECODE of a buffer leaves in `HDR` (R80 to R82). -/
def recordOf (m : Memory) : Option Header := if m.len < Config.minLen then none else (loadHeader m).toOption

/-- What `P_SAME_ROM` is for (R201, R196): the record and every checksum that holds a value are those of one buffer, the one
presented to the most recent DECODE. -/
structure Hdv.DescribesImage (decoded : Option Memory) (d : Hdv) : Prop where
  record : d.hdr = decoded.bind recordOf
  hckOfImage : ∀ x, d.hckCalc = some x → ∃ m, decoded = some m ∧ hck m = .ok x
  gckOfImage : ∀ x, d.gckCalc = some x → ∃ m, decoded = some m ∧ gck m = .ok x

/-- `LOGO_CAND` of spec/93_implementation_defined.md G1, PRESUMED there; no definition of the model uses it (log entry 8). -/
def logoCand : Vector Byte 48 :=
  #v[0xCE, 0xED, 0x66, 0x66, 0xCC, 0x0D, 0x00, 0x0B, 0x03, 0x73, 0x00, 0x83, 0x00, 0x0C, 0x00, 0x0D,
     0x00, 0x08, 0x11, 0x1F, 0x88, 0x89, 0x00, 0x0E, 0xDC, 0xCC, 0x6E, 0xE6, 0xDD, 0xDD, 0xD9, 0x99,
     0xBB, 0xBB, 0x67, 0x63, 0x6E, 0x0E, 0xEC, 0xCC, 0xDD, 0xDC, 0x99, 0x9F, 0xBB, 0xB9, 0x33, 0x3E]

/-- `P_LOGO_CAND`: a premise a claim may name, never a fact of the model (R201). -/
def pLogoCand : Prop := Config.logoRef = logoCand

/-- Several commands one after the other, each presented with the same buffer (R42). -/
def execAll : List Instr → State → Host.Outcome State Fault Refusal
  | [], s => .next s
  | i :: rest, s =>
    match exec i s with
    | .next t => execAll rest t
    | .fault f => .fault f
    | .refused r => .refused r

end Sys2Proof.Machine
end

