-- ==== Sys2Proof/Certificates/Slice0/Obligations.lean ====
section
/-! DEFINITION. The statements for the provers. Each docstring names the rule of spec/ it comes from, or the log entry where
the form of the statement is the model's own. -/

open Sys2Proof Sys2Proof.Machine

/-! ### Encoding -/

/-- R50: the eight command words and what they select, and the words the encoder gives back. -/
def Obligations.CommandWordTable : Prop :=
  (decodeCommand 0b000 = .nop ∧ decodeCommand 0b001 = .decode ∧ decodeCommand 0b010 = .vlogo ∧
    decodeCommand 0b011 = .vhck ∧ decodeCommand 0b100 = .vgck ∧ decodeCommand 0b101 = .reserved5 ∧
    decodeCommand 0b110 = .reserved6 ∧ decodeCommand 0b111 = .reserved7) ∧
  (encodeCommand .nop = 0b000 ∧ encodeCommand .decode = 0b001 ∧ encodeCommand .vlogo = 0b010 ∧
    encodeCommand .vhck = 0b011 ∧ encodeCommand .vgck = 0b100 ∧ encodeCommand .reserved5 = 0b101 ∧
    encodeCommand .reserved6 = 0b110 ∧ encodeCommand .reserved7 = 0b111)

/-- R50, R65: the decoder and the encoder agree on every list of bytes: bytes decode to a command exactly when they are the
encoder's bytes of it. That a command word stands in one byte with zeros above is the model's choice (log entry 3). -/
def Obligations.BytesDecodeExactlyToTheirEncoding : Prop :=
  ∀ (bytes : List Byte) (i : Instr), decodeBytes bytes = .ok i ↔ bytes = encodeBytes i

/-- R50, R150: a table word below 8 placed as the host's next action is decoded and run by the very next step, and a byte with
a bit above the 3-bit word carries no command (the model's choice, log entry 3). -/
def Obligations.PlacedTableWordRuns : Prop :=
  (∀ (s : State) (w : Nat), w < 8 →
    decodeTableWord 8 w = some (decodeCommand (BitVec.ofNat 3 w)) ∧
    step (s.withFetchWord 8 w) = exec (decodeCommand (BitVec.ofNat 3 w)) s) ∧
  (∀ w, 8 ≤ w → w < 256 → decodeTableWord 8 w = none)

/-! ### The step -/

/-- R150: a step whose next host action presents a command word is the execution of the command the word selects, on the state
with that action taken; and it is HDV's own step, with the command word and the buffer as arguments, on the state of HDV (R10,
R28), the host's side left alone. That the host's actions stand in State is the model's choice (log entry 1). -/
def Obligations.StepRunsPresentedCommand : Prop :=
  ∀ (s : State) (c : BitVec 3) (rest : List HostAction), s.script = .command c :: rest →
    step s = exec (decodeCommand c) { s with script := rest } ∧
    ∀ d : Hdv, hdvStep c s.rom s.toHdv = .next d → step s = .next { s with toHdv := d, script := rest }

/-- R150: "HDV is idle until the host presents a command word"; that an idle step changes nothing is the model's choice
(log entry 5). -/
def Obligations.IdleStepChangesNothing : Prop :=
  ∀ s : State, s.script = [] → step s = .next s

/-- R27: the values after reset; what the host owns is not reset. -/
def Obligations.ResetStateValues : Prop :=
  State.reset.hdr = none ∧ State.reset.logoRes = .notRun ∧ State.reset.hckRes = .notRun ∧ State.reset.gckRes = .notRun ∧
  State.reset.errTrunc = false ∧ State.reset.errNohdr = false ∧ State.reset.errCmd = false ∧ State.reset.last = .ok ∧
  State.reset.hckCalc = none ∧ State.reset.gckCalc = none ∧ State.reset.status = 0x0000 ∧
  (∀ r : Reg, r ≠ .status → State.reset.regValue r = none) ∧
  ∀ s : State, s.applyReset.rom = s.rom ∧ s.applyReset.script = s.script ∧ s.applyReset.readData = s.readData

/-- R190, R191: the reset event takes HDV from any state to the reset state and leaves what the host owns alone. -/
def Obligations.ResetEventRestoresResetState : Prop :=
  ∀ (s : State) (rest : List HostAction), s.script = .reset :: rest →
    step s = .next { State.reset with rom := s.rom, script := rest, readData := s.readData }

/-- R196, R43: presenting another buffer changes the buffer and nothing of HDV. -/
def Obligations.PresentedBufferReplacesBufferOnly : Prop :=
  ∀ (s : State) (bytes : List Byte) (rest : List HostAction), s.script = .present bytes :: rest →
    step s = .next { s with rom := Memory.ofBytes bytes, script := rest }

/-- Every command completes: from every state each command answers a next state (R150 "Every step terminates", R32, R170
"never panics"). -/
def Obligations.EveryCommandCompletes : Prop :=
  ∀ (i : Instr) (s : State), ∃ t, exec i s = .next t

/-- Every step completes, whatever the host does (R200, R150): a register read that the spec refuses is refused to the host, and
HDV goes on (DEDUCED, log entry 10). The last read is a refusal only after such a read. -/
def Obligations.EveryStepCompletes : Prop :=
  ∀ s : State, ∃ t, step s = .next t ∧
    ∀ why, t.readData = .refused why → s.readData = .refused why ∨
      ∃ sel rest, s.script = .read sel :: rest ∧ t.toHdv = s.toHdv ∧
        ((regOfSelect sel = none ∧ why = .reservedSelect sel) ∨
          ∃ r, regOfSelect sel = some r ∧ s.regValue r = none ∧ why = .holdsNoValue r)

/-! ### The ROM buffer -/

/-- R31, R32: `MemRead` inside a presented buffer answers its bytes in ascending order; outside it R31 does not define it, and
the model answers a fault and never a value (R32; DEDUCED, log entry 11). A read of zero bytes is the model's (log entry 19). -/
def Obligations.MemReadAnswersBufferBytes : Prop :=
  ∀ (bytes : List Byte) (a n : Nat),
    (∀ h : a < bytes.length, (Memory.ofBytes bytes).read1 a = .ok bytes[a]) ∧
    (bytes.length ≤ a → (Memory.ofBytes bytes).read1 a = .error (.romOutOfBounds a 1)) ∧
    (∀ h : a + n ≤ bytes.length, ∃ v : Vector Byte n, (Memory.ofBytes bytes).readN a n = .ok v ∧
      ∀ i (hi : i < n), v[i] = bytes[a + i]) ∧
    (bytes.length < a + n → (Memory.ofBytes bytes).readN a n = .error (.romOutOfBounds a n))

/-- R33, R2: no command writes memory or anything else the host owns: the frame of all eight commands on the buffer, byte for
byte, the host's actions and its last read. That the actions and the last read stand in State is the model's choice (log
entry 1). -/
def Obligations.CommandsLeaveHostSideUnchanged : Prop :=
  ∀ (i : Instr) (s t : State), exec i s = .next t →
    t.rom = s.rom ∧ t.script = s.script ∧ t.readData = s.readData ∧ ∀ a, t.rom.read1 a = s.rom.read1 a

/-- R30, R43: NOP, VLOGO and the reserved codes read no memory: on another buffer they do the same. -/
def Obligations.BufferFreeCommandsIgnoreTheBuffer : Prop :=
  ∀ (i : Instr) (s t : State) (m : Memory), i ∈ [Instr.nop, .vlogo, .reserved5, .reserved6, .reserved7] →
    exec i s = .next t → exec i { s with rom := m } = .next { t with rom := m }

/-! ### NOP and the reserved codes -/

/-- R151: the state after NOP is the state before it. -/
def Obligations.NopChangesNothing : Prop :=
  ∀ s : State, exec .nop s = .next s

/-- R152: the three reserved codes set `ERR_CMD`, write `LAST` and change nothing else. -/
def Obligations.ReservedCodesLatchReservedCommand : Prop :=
  ∀ s : State,
    exec .reserved5 s = .next { s with errCmd := true, last := .reservedCommand } ∧
    exec .reserved6 s = .next { s with errCmd := true, last := .reservedCommand } ∧
    exec .reserved7 s = .next { s with errCmd := true, last := .reservedCommand }

/-! ### DECODE -/

/-- R80, R82: a buffer shorter than 0x0150 leaves no record, resets the results, sets `ERR_TRUNC` and changes nothing else. -/
def Obligations.DecodeOfShortBufferInvalidates : Prop :=
  ∀ s : State, s.rom.len < 0x0150 →
    exec .decode s = .next { s with
      hdr := none, logoRes := .notRun, hckRes := .notRun, gckRes := .notRun, hckCalc := none, gckCalc := none,
      errTrunc := true, last := .truncatedInput }

/-- R80, R81: a buffer of at least 0x0150 bytes gives a record, resets the results, and changes nothing else. -/
def Obligations.DecodeCommitsRecord : Prop :=
  ∀ s : State, 0x0150 ≤ s.rom.len → ∃ h : Header,
    exec .decode s = .next { s with
      hdr := some h, logoRes := .notRun, hckRes := .notRun, gckRes := .notRun, hckCalc := none, gckCalc := none,
      last := .ok }

/-- R84 to R87, R90: the five array fields, byte for byte. -/
def Obligations.DecodeExtractsByteArrays : Prop :=
  ∀ s : State, 0x0150 ≤ s.rom.len → ∃ (t : State) (h : Header),
    exec .decode s = .next t ∧ t.hdr = some h ∧
    (∀ i (hi : i < 4), s.rom.read1 (0x0100 + i) = .ok h.entryPoint[i]) ∧
    (∀ i (hi : i < 48), s.rom.read1 (0x0104 + i) = .ok h.nintendoLogo[i]) ∧
    (∀ i (hi : i < 16), s.rom.read1 (0x0134 + i) = .ok h.title[i]) ∧
    (∀ i (hi : i < 4), s.rom.read1 (0x013F + i) = .ok h.manufacturerCode[i]) ∧
    (∀ i (hi : i < 2), s.rom.read1 (0x0144 + i) = .ok h.newLicenseeCode[i])

/-- R88, R89, R91 to R97: the nine single-byte fields. -/
def Obligations.DecodeExtractsSingleBytes : Prop :=
  ∀ s : State, 0x0150 ≤ s.rom.len → ∃ (t : State) (h : Header),
    exec .decode s = .next t ∧ t.hdr = some h ∧
    s.rom.read1 0x0143 = .ok h.cgbFlag ∧ s.rom.read1 0x014B = .ok h.oldLicenseeCode ∧
    s.rom.read1 0x0146 = .ok h.sgbFlag ∧ s.rom.read1 0x0147 = .ok h.cartridgeType ∧
    s.rom.read1 0x0148 = .ok h.romSize ∧ s.rom.read1 0x0149 = .ok h.ramSize ∧
    s.rom.read1 0x014A = .ok h.destinationCode ∧ s.rom.read1 0x014C = .ok h.versionNumber ∧
    s.rom.read1 0x014D = .ok h.headerChecksum

/-- R98, R36: the stored global checksum is assembled big-endian. -/
def Obligations.DecodeAssemblesGlobalChecksum : Prop :=
  ∀ s : State, 0x0150 ≤ s.rom.len → ∃ (t : State) (h : Header) (high low : Byte),
    exec .decode s = .next t ∧ t.hdr = some h ∧
    s.rom.read1 0x014E = .ok high ∧ s.rom.read1 0x014F = .ok low ∧
    h.globalChecksum.toNat = high.toNat * 256 + low.toNat

/-- R14: the overlap identities of every record DECODE makes. -/
def Obligations.DecodedRecordOverlaps : Prop :=
  ∀ (s t : State) (h : Header), exec .decode s = .next t → t.hdr = some h →
    (∀ i (hi : i < 4), h.manufacturerCode[i] = h.title[11 + i]) ∧ h.cgbFlag = h.title[15]

/-- R108 (b), (c): what DECODE leaves in HDV depends only on whether the buffer is long enough, on its bytes 0x0100 to 0x014F
and on the old sticky flags. -/
def Obligations.DecodeDependsOnHeaderBytesOnly : Prop :=
  ∀ s s' : State, (0x0150 ≤ s.rom.len ↔ 0x0150 ≤ s'.rom.len) →
    (∀ a, 0x0100 ≤ a → a < 0x0150 → 0x0150 ≤ s.rom.len → s.rom.read1 a = s'.rom.read1 a) →
    s.errTrunc = s'.errTrunc → s.errNohdr = s'.errNohdr → s.errCmd = s'.errCmd →
    ∃ t, exec .decode s = .next t ∧
      exec .decode s' = .next { t with rom := s'.rom, script := s'.script, readData := s'.readData }

/-- R13: no command but DECODE changes `HDR`. -/
def Obligations.OnlyDecodeWritesRecord : Prop :=
  ∀ (i : Instr) (s t : State), i ≠ .decode → exec i s = .next t → t.hdr = s.hdr

/-! ### The views -/

/-- R100: the class of `cgb_flag`, on the whole byte, with its codes (R15). -/
def Obligations.CgbClassOfWholeByte : Prop :=
  cgbClass 0x80 = .enhanced ∧ cgbClass 0xC0 = .only ∧ (∀ v : Byte, v ≠ 0x80 → v ≠ 0xC0 → cgbClass v = .none) ∧
  CgbClass.enhanced.code = 1 ∧ CgbClass.only.code = 2 ∧ CgbClass.none.code = 0

/-- R101: the class of `sgb_flag`, on the whole byte, with its codes (R15). -/
def Obligations.SgbClassOfWholeByte : Prop :=
  sgbClass 0x03 = .enhanced ∧ (∀ v : Byte, v ≠ 0x03 → sgbClass v = .unsupported) ∧
  SgbClass.enhanced.code = 1 ∧ SgbClass.unsupported.code = 0

/-- R102: the class of `destination_code`, for whatever the map is. -/
def Obligations.DestClassFollowsTheMap : Prop :=
  (∀ (v : Byte) (label : RegionLabel), Config.destMap v = some label → destClass v = .region label) ∧
  (∀ v : Byte, Config.destMap v = none → destClass v = .unknown)

/-- R103 to R105: the selection by the sentinel, the lookup in the selected table, and the quoted examples and misses. -/
def Obligations.LicenseeResolution : Prop :=
  ∀ h : Header,
    (h.oldLicenseeCode = 0x33 → h.licSel = .new ∧
      (∀ n, Config.newLicensee h.newLicenseeCode[0] h.newLicenseeCode[1] = some n → h.licName = .entry n) ∧
      (Config.newLicensee h.newLicenseeCode[0] h.newLicenseeCode[1] = none → h.licName = .unknown) ∧
      (h.newLicenseeCode[0] = 0x30 → h.newLicenseeCode[1] = 0x31 → h.licName = .entry .nintendoResearchDevelopment1) ∧
      ((0x80 : Byte) ≤ h.newLicenseeCode[0] ∨ (0x80 : Byte) ≤ h.newLicenseeCode[1] → h.licName = .unknown)) ∧
    (h.oldLicenseeCode ≠ 0x33 → h.licSel = .old ∧
      (∀ n, Config.oldLicensee h.oldLicenseeCode = some n → h.licName = .entry n) ∧
      (Config.oldLicensee h.oldLicenseeCode = none → h.licName = .unknown) ∧
      (h.oldLicenseeCode = 0x01 → h.licName = .entry .nintendo) ∧
      (h.oldLicenseeCode = 0xFE → h.licName = .unknown)) ∧
    LicSel.new.code = 1 ∧ LicSel.old.code = 0

/-- R106: with another sentinel byte the name does not depend on `new_licensee_code` nor, with the sentinel, on anything but
`new_licensee_code`. -/
def Obligations.LicenseeTablesAreExclusive : Prop :=
  ∀ h h' : Header, h.oldLicenseeCode = h'.oldLicenseeCode →
    (h.oldLicenseeCode ≠ 0x33 → h.licName = h'.licName) ∧
    (h.oldLicenseeCode = 0x33 → h.newLicenseeCode = h'.newLicenseeCode → h.licName = h'.licName)

/-- R6: the three facts and the key constraint of the licensee tables. -/
def Obligations.LicenseeTableFacts : Prop :=
  Config.oldLicensee 0x01 = some .nintendo ∧ Config.oldLicensee 0xFE = none ∧
  Config.newLicensee 0x30 0x31 = some .nintendoResearchDevelopment1 ∧
  ∀ (a b : Byte) (n : PublisherName), Config.newLicensee a b = some n → a < 0x80 ∧ b < 0x80

/-- R61: the size a `rom_size` code encodes, and the codes the rule works out. -/
def Obligations.RomSizeCode : Prop :=
  (∀ v : Byte, romBytes v = 32768 * 2 ^ v.toNat) ∧
  romBytes 0 = 32768 ∧ romBytes 1 = 65536 ∧ romBytes 8 = 8388608

/-! ### VLOGO -/

/-- R120: VLOGO in its three cases, from every state; nothing else changes. -/
def Obligations.VlogoResult : Prop :=
  ∀ s : State,
    (s.hdr = none → exec .vlogo s = .next { s with errNohdr := true, last := .noHeader }) ∧
    (∀ h, s.hdr = some h →
      ((∀ i (hi : i < 48), h.nintendoLogo[i] = Config.logoRef[i]) →
        exec .vlogo s = .next { s with logoRes := .pass, last := .ok }) ∧
      ((∃ i, ∃ hi : i < 48, h.nintendoLogo[i] ≠ Config.logoRef[i]) →
        exec .vlogo s = .next { s with logoRes := .fail, last := .logoMismatch }))

/-- R124: DECODE then VLOGO passes if and only if the 48 bytes of the buffer are those of `LOGO_REF`, and fails with
`LogoMismatch` otherwise. -/
def Obligations.DecodeThenVlogoPassesIffLogoMatches : Prop :=
  ∀ s : State, 0x0150 ≤ s.rom.len → ∃ t, execAll [.decode, .vlogo] s = .next t ∧
    (t.logoRes = .pass ↔ ∀ i (hi : i < 48), s.rom.read1 (0x0104 + i) = .ok Config.logoRef[i]) ∧
    (t.logoRes ≠ .pass → t.logoRes = .fail ∧ t.last = .logoMismatch)

/-- R121: the form of the rendering: its length, the two digits of byte `i` at `3i` and `3i + 1`, a space between pairs. -/
def Obligations.HexRenderingForm : Prop :=
  ∀ bs : List Byte, bs ≠ [] →
    (hexRender bs).length = 3 * bs.length - 1 ∧
    (∀ i (hi : i < bs.length),
      (hexRender bs)[3 * i]? = some (hexDigit (bs[i].extractLsb' 4 4)) ∧
      (hexRender bs)[3 * i + 1]? = some (hexDigit (bs[i].extractLsb' 0 4)) ∧
      (i + 1 < bs.length → (hexRender bs)[3 * i + 2]? = some ' ')) ∧
    hexRender [0xCE, 0xED, 0x66] = ['C', 'E', ' ', 'E', 'D', ' ', '6', '6'] ∧ hexRender [0x0B] = ['0', 'B']

/-- R122: the rendering is injective on arrays of equal length, so comparing renderings is comparing bytes. For two empty arrays
the first clause holds whatever their rendering is (log entry 12). -/
def Obligations.HexRenderingIsInjective : Prop :=
  (∀ bs cs : List Byte, bs.length = cs.length → hexRender bs = hexRender cs → bs = cs) ∧
  ∀ h : Header, hexRender h.nintendoLogo.toList = hexRender Config.logoRef.toList ↔ h.nintendoLogo = Config.logoRef

/-- R123: parsing the rendering gives the bytes back, for the logo and for every non-empty array. -/
def Obligations.HexRoundTrip : Prop :=
  (∀ b : Vector Byte 48, hexParse (hexRender b.toList) = some b.toList) ∧
  ∀ bs : List Byte, bs ≠ [] → hexParse (hexRender bs) = some bs

/-! ### VHCK and VGCK -/

/-- R134: VHCK in its cases, from every state; nothing else changes. -/
def Obligations.VhckResult : Prop :=
  ∀ s : State,
    (s.hdr = none → exec .vhck s = .next { s with errNohdr := true, last := .noHeader }) ∧
    (∀ h, s.hdr = some h →
      (s.rom.len < 0x0150 → exec .vhck s = .next { s with errTrunc := true, last := .truncatedInput }) ∧
      (0x0150 ≤ s.rom.len → ∃ x, hck s.rom = .ok x ∧
        (x = h.headerChecksum → exec .vhck s = .next { s with hckCalc := some x, hckRes := .pass, last := .ok }) ∧
        (x ≠ h.headerChecksum →
          exec .vhck s = .next { s with hckCalc := some x, hckRes := .fail, last := .headerChecksumMismatch })))

/-- R139: VGCK in its cases, from every state; nothing else changes. -/
def Obligations.VgckResult : Prop :=
  ∀ s : State,
    (s.hdr = none → exec .vgck s = .next { s with errNohdr := true, last := .noHeader }) ∧
    (∀ h, s.hdr = some h →
      (s.rom.len < 0x0150 → exec .vgck s = .next { s with errTrunc := true, last := .truncatedInput }) ∧
      (0x0150 ≤ s.rom.len → ∃ x, gck s.rom = .ok x ∧
        (x = h.globalChecksum → exec .vgck s = .next { s with gckCalc := some x, gckRes := .pass, last := .ok }) ∧
        (x ≠ h.globalChecksum →
          exec .vgck s = .next { s with gckCalc := some x, gckRes := .fail, last := .globalChecksumMismatch })))

/-- R130: the header checksum of a presented buffer is the running value over its 25 bytes 0x0134 to 0x014C. -/
def Obligations.HeaderChecksumRunsOverTheSpan : Prop :=
  ∀ bytes : List Byte, 0x0150 ≤ bytes.length →
    hck (Memory.ofBytes bytes) = .ok (((bytes.drop 0x0134).take 25).foldl (fun x b => x - b - 1) 0)

/-- R131: the closed form of the header checksum, and its values on spans of zeros and of 0xFF. -/
def Obligations.HeaderChecksumClosedForm : Prop :=
  ∀ bytes : List Byte, 0x0150 ≤ bytes.length → ∃ x, hck (Memory.ofBytes bytes) = .ok x ∧
    (x.toNat : Int) = (231 - ((((bytes.drop 0x0134).take 25).map BitVec.toNat).sum : Nat)) % 256 ∧
    ((∀ b ∈ (bytes.drop 0x0134).take 25, b = 0x00) → x = 0xE7) ∧
    ((∀ b ∈ (bytes.drop 0x0134).take 25, b = 0xFF) → x = 0x00)

/-- R132: for an unchanged buffer the header checksum is that of the copies in `HDR`, and the stored byte is `rom[0x014D]`. -/
def Obligations.HeaderChecksumFromTheRecord : Prop :=
  ∀ (s t : State) (h : Header), exec .decode s = .next t → t.hdr = some h →
    hck t.rom = .ok ((h.title.toList ++ h.newLicenseeCode.toList ++
      [h.sgbFlag, h.cartridgeType, h.romSize, h.ramSize, h.destinationCode, h.oldLicenseeCode, h.versionNumber]).foldl
        (fun x b => x - b - 1) 0) ∧
    t.rom.read1 0x014D = .ok h.headerChecksum

/-- R135: the global checksum of a presented buffer is the 16-bit sum of its bytes without the two at 0x014E and 0x014F. -/
def Obligations.GlobalChecksumSumsAllOtherBytes : Prop :=
  ∀ bytes : List Byte, 0x0150 ≤ bytes.length →
    gck (Memory.ofBytes bytes) =
      .ok ((bytes.take 0x014E ++ bytes.drop 0x0150).foldl (fun x b => x + b.setWidth 16) 0)

/-- R136: the closed form of the global checksum, and its values on buffers of zeros and of 0xFF. -/
def Obligations.GlobalChecksumClosedForm : Prop :=
  ∀ bytes : List Byte, 0x0150 ≤ bytes.length → ∃ x, gck (Memory.ofBytes bytes) = .ok x ∧
    x.toNat = ((bytes.take 0x014E ++ bytes.drop 0x0150).map BitVec.toNat).sum % 65536 ∧
    ((∀ b ∈ bytes, b = 0x00) → x = 0) ∧
    ((∀ b ∈ bytes, b = 0xFF) → x.toNat = ((bytes.length - 2) * 255) % 65536)

/-- R140: two different validators may run in either order: everything but `LAST` ends the same. -/
def Obligations.ValidatorsRunInAnyOrder : Prop :=
  ∀ (i j : Instr) (s : State), i ∈ [Instr.vlogo, .vhck, .vgck] → j ∈ [Instr.vlogo, .vhck, .vgck] →
    ∃ t t', execAll [i, j] s = .next t ∧ execAll [j, i] s = .next t' ∧ t' = { t with last := t'.last }

/-- R201 over R81, R120, R134, R139: from the reset state with one buffer of at least 0x0150 bytes, DECODE and the three
validators leave a clean record (P_NOFAULT), and each check passes exactly when the buffer satisfies it. -/
def Obligations.CleanValidationOfOneImage : Prop :=
  ∀ s : State, s.pReset → 0x0150 ≤ s.rom.len → ∃ (t : State) (x : Byte) (y : Half) (high low stored : Byte),
    execAll [.decode, .vlogo, .vhck, .vgck] s = .next t ∧ t.pNoFault ∧ t.hdr.isSome = true ∧
    hck s.rom = .ok x ∧ gck s.rom = .ok y ∧ t.hckCalc = some x ∧ t.gckCalc = some y ∧
    s.rom.read1 0x014D = .ok stored ∧ s.rom.read1 0x014E = .ok high ∧ s.rom.read1 0x014F = .ok low ∧
    (t.logoRes = .pass ↔ ∀ i (hi : i < 48), s.rom.read1 (0x0104 + i) = .ok Config.logoRef[i]) ∧
    (t.hckRes = .pass ↔ x = stored) ∧
    (t.gckRes = .pass ↔ y.toNat = high.toNat * 256 + low.toNat) ∧
    t.logoRes ≠ .notRun ∧ t.hckRes ≠ .notRun ∧ t.gckRes ≠ .notRun

/-! ### STATUS and the outcomes -/

/-- R17, R18: `STATUS` as a number, its reserved bits and its fields. -/
def Obligations.StatusWordLayout : Prop :=
  ∀ s : State,
    s.status.toNat = (if s.hdr.isSome then 1 else 0) + 2 * s.logoRes.code.toNat + 8 * s.hckRes.code.toNat +
      32 * s.gckRes.code.toNat + (if s.errTrunc then 128 else 0) + (if s.errNohdr then 256 else 0) +
      (if s.errCmd then 512 else 0) + 1024 * s.last.code.toNat ∧
    s.status.extractLsb' 13 3 = 0 ∧
    s.status.extractLsb' 1 2 ≠ 3 ∧ s.status.extractLsb' 3 2 ≠ 3 ∧ s.status.extractLsb' 5 2 ≠ 3 ∧
    s.status.extractLsb' 10 3 ≠ 7

/-- R17, R160: the numeric codes of the result fields and of the outcomes. -/
def Obligations.ResultAndOutcomeCodes : Prop :=
  CheckResult.notRun.code = 0 ∧ CheckResult.pass.code = 1 ∧ CheckResult.fail.code = 2 ∧
  CmdOutcome.ok.code = 0 ∧ CmdOutcome.truncatedInput.code = 1 ∧ CmdOutcome.logoMismatch.code = 2 ∧
  CmdOutcome.headerChecksumMismatch.code = 3 ∧ CmdOutcome.globalChecksumMismatch.code = 4 ∧
  CmdOutcome.noHeader.code = 5 ∧ CmdOutcome.reservedCommand.code = 6

/-- R160, R161 to R166: which command can end with which outcome; NOP writes none (R21). -/
def Obligations.OutcomesOfEachCommand : Prop :=
  ∀ (i : Instr) (s t : State), exec i s = .next t →
    (i = .nop → t.last = s.last) ∧
    (i = .decode → t.last = .ok ∨ t.last = .truncatedInput) ∧
    (i = .vlogo → t.last = .ok ∨ t.last = .logoMismatch ∨ t.last = .noHeader) ∧
    (i = .vhck → t.last = .ok ∨ t.last = .truncatedInput ∨ t.last = .headerChecksumMismatch ∨ t.last = .noHeader) ∧
    (i = .vgck → t.last = .ok ∨ t.last = .truncatedInput ∨ t.last = .globalChecksumMismatch ∨ t.last = .noHeader) ∧
    (i = .reserved5 ∨ i = .reserved6 ∨ i = .reserved7 → t.last = .reservedCommand)

/-- R19: each result field and each computed checksum is written by its own validator and by DECODE only, and DECODE takes
all of them back to `NOT_RUN` and to no value. -/
def Obligations.ResultFieldsHaveOneWriter : Prop :=
  ∀ (i : Instr) (s t : State), exec i s = .next t →
    (i ≠ .vlogo → i ≠ .decode → t.logoRes = s.logoRes) ∧
    (i ≠ .vhck → i ≠ .decode → t.hckRes = s.hckRes ∧ t.hckCalc = s.hckCalc) ∧
    (i ≠ .vgck → i ≠ .decode → t.gckRes = s.gckRes ∧ t.gckCalc = s.gckCalc) ∧
    (i = .decode → t.logoRes = .notRun ∧ t.hckRes = .notRun ∧ t.gckRes = .notRun ∧ t.hckCalc = none ∧ t.gckCalc = none)

/-- R20, R160: a command sets a sticky flag exactly when it ends with the matching outcome, and clears none. -/
def Obligations.StickyFlagsFollowOutcomes : Prop :=
  ∀ (i : Instr) (s t : State), exec i s = .next t → i ≠ .nop →
    (t.errTrunc = true ↔ s.errTrunc = true ∨ t.last = .truncatedInput) ∧
    (t.errNohdr = true ↔ s.errNohdr = true ∨ t.last = .noHeader) ∧
    (t.errCmd = true ↔ s.errCmd = true ∨ t.last = .reservedCommand)

/-- R20, R190: only the reset event clears a sticky flag, over every step of the machine. -/
def Obligations.OnlyResetClearsStickyFlags : Prop :=
  ∀ s t : State, step s = .next t →
    (s.errTrunc = true ∧ t.errTrunc = false) ∨ (s.errNohdr = true ∧ t.errNohdr = false) ∨
      (s.errCmd = true ∧ t.errCmd = false) →
    ∃ rest, s.script = .reset :: rest

/-- R169, R165: after a DECODE of a short buffer every validator answers `NoHeader` and leaves no record. -/
def Obligations.ValidatorsAfterFailedDecode : Prop :=
  ∀ (i : Instr) (s : State), i ∈ [Instr.vlogo, .vhck, .vgck] → s.rom.len < 0x0150 →
    ∃ t, execAll [.decode, i] s = .next t ∧ t.last = .noHeader ∧ t.hdr = none ∧
      t.errTrunc = true ∧ t.errNohdr = true ∧
      t.logoRes = .notRun ∧ t.hckRes = .notRun ∧ t.gckRes = .notRun

/-! ### The read port -/

/-- R53, R12, R15: the selects 0 to 19 read the fields and the views of the record; nothing else changes. -/
def Obligations.RecordRegistersReadBack : Prop :=
  ∀ (s : State) (h : Header) (rest : List HostAction), s.hdr = some h →
    ∀ (sel : BitVec 5) (v : RegValue),
      (sel, v) ∈ [(0#5, .bytes h.entryPoint.toList), (1#5, .bytes h.nintendoLogo.toList), (2#5, .bytes h.title.toList),
        (3#5, .bytes h.manufacturerCode.toList), (4#5, .byte h.cgbFlag), (5#5, .byte h.oldLicenseeCode),
        (6#5, .bytes h.newLicenseeCode.toList), (7#5, .byte h.sgbFlag), (8#5, .byte h.cartridgeType),
        (9#5, .byte h.romSize), (10#5, .byte h.ramSize), (11#5, .byte h.destinationCode), (12#5, .byte h.versionNumber),
        (13#5, .byte h.headerChecksum), (14#5, .half h.globalChecksum), (15#5, .cgbClass (cgbClass h.cgbFlag)),
        (16#5, .sgbClass (sgbClass h.sgbFlag)), (17#5, .destClass (destClass h.destinationCode)),
        (18#5, .licSel h.licSel), (19#5, RegValue.licName h.licName)] →
      step { s with script := .read sel :: rest } = .next { s with script := rest, readData := .value v }

/-- R53, R17, R22: the selects 20 to 22 read `STATUS`, which always holds a value, and the computed checksums. -/
def Obligations.StatusAndChecksumRegistersReadBack : Prop :=
  ∀ (s : State) (rest : List HostAction),
    step { s with script := .read 20 :: rest } = .next { s with script := rest, readData := .value (.half s.status) } ∧
    (∀ x, s.hckCalc = some x →
      step { s with script := .read 21 :: rest } = .next { s with script := rest, readData := .value (.byte x) }) ∧
    (∀ x, s.gckCalc = some x →
      step { s with script := .read 22 :: rest } = .next { s with script := rest, readData := .value (.half x) })

/-- R11, R53, R198: a read of a register that holds no value, or with a reserved select, is refused: the host gets no result, and
nothing else changes. That HDV goes on after it is DEDUCED (log entry 10). -/
def Obligations.ReadsWithoutValueAreRefused : Prop :=
  ∀ (s : State) (sel : BitVec 5) (rest : List HostAction),
    (s.hdr = none → sel.toNat < 20 → ∃ r, regOfSelect sel = some r ∧
      step { s with script := .read sel :: rest } = .next { s with script := rest, readData := .refused (.holdsNoValue r) }) ∧
    (s.hckCalc = none → step { s with script := .read 21 :: rest } =
      .next { s with script := rest, readData := .refused (.holdsNoValue .hckCalc) }) ∧
    (s.gckCalc = none → step { s with script := .read 22 :: rest } =
      .next { s with script := rest, readData := .refused (.holdsNoValue .gckCalc) }) ∧
    (23 ≤ sel.toNat → step { s with script := .read sel :: rest } =
      .next { s with script := rest, readData := .refused (.reservedSelect sel) })

/-! ### The assembler and several instances -/

/-- R66, R67: what the items of a listing stand for; CHECK is VLOGO, VHCK, VGCK in that order. -/
def Obligations.ListingItemsStandForActions : Prop :=
  AsmItem.check.actions = [.command 0b010, .command 0b011, .command 0b100] ∧
  (AsmItem.command .nop).actions = [.command 0b000] ∧ (AsmItem.command .decode).actions = [.command 0b001] ∧
  (AsmItem.command .vlogo).actions = [.command 0b010] ∧ (AsmItem.command .vhck).actions = [.command 0b011] ∧
  (AsmItem.command .vgck).actions = [.command 0b100] ∧ AsmItem.dotReset.actions = [.reset] ∧
  (∀ bytes, (AsmItem.dotRom bytes).actions = [.present bytes]) ∧ ∀ c, (AsmItem.dotCmd c).actions = [.command c]

/-- R180: steps of two different instances may be taken in either order. -/
def Obligations.InstancesAreIndependent : Prop :=
  ∀ (j k : Nat) (l l₁ l₂ : List State), j ≠ k → stepOne j l = .next l₁ → stepOne k l₁ = .next l₂ →
    ∃ l', stepOne k l = .next l' ∧ stepOne j l' = .next l₂

/-! ### Invariants -/

/-- The invariants of R28 and R14 hold at reset. The clause that the buffer is in canonical form is the model's own (log entry
2), and so is the empty buffer it speaks of (log entry 4). -/
def Obligations.InvariantsHoldAtReset : Prop := State.reset.Inv

/-- R28, R14: every step keeps the invariants, whatever the host does. The clause that the buffer is in canonical form is the
model's own (log entry 2). -/
def Obligations.StepKeepsInvariants : Prop :=
  ∀ s t : State, s.Inv → step s = .next t → t.Inv

/-- The results describe the record at reset. -/
def Obligations.ResultsDescribeRecordAtReset : Prop := State.reset.ResultsDescribeRecord

/-- R19, R160: every step keeps it that each result describes the record in `HDR`, and that `LAST` agrees with the flags. -/
def Obligations.StepKeepsResultsDescribingRecord : Prop :=
  ∀ s t : State, s.ResultsDescribeRecord → step s = .next t → t.ResultsDescribeRecord
end

