-- ==== Sys2Proof/Laws/Memory.lean ====
section
/-! SUPPORT. The ROM buffer: the canonical form is kept by the one operation that makes a buffer, a buffer in canonical form and
the finite sequence of its bytes determine each other (log entry 2), and what the two reads answer. -/

namespace Sys2Proof.Machine

/-! ### Cells -/

@[simp] theorem cellByte_nil (a : Nat) : cellByte [] a = 0 := rfl

@[simp] theorem cellByte_cons (k a : Nat) (b : Byte) (rest : List Host.Cell) :
    cellByte ((k, b) :: rest) a = if k = a then b else cellByte rest a := rfl

/-- Below the lower bound of canonical cells nothing is listed. -/
theorem cellByte_below (cells : List Host.Cell) (lo hi a : Nat) (h : cellsWf lo hi cells = true) (ha : a < lo) :
    cellByte cells a = 0 := by
  induction cells generalizing lo with
  | nil => rfl
  | cons c rest ih =>
    obtain ⟨k, b⟩ := c
    simp only [cellsWf, Bool.and_eq_true, decide_eq_true_eq] at h
    rw [cellByte_cons, if_neg (by omega), ih (k + 1) h.2 (by omega)]

/-- A lower bound may be lowered. -/
theorem cellsWf_mono (cells : List Host.Cell) (lo lo' hi : Nat) (h : cellsWf lo hi cells = true) (hl : lo' ≤ lo) :
    cellsWf lo' hi cells = true := by
  cases cells with
  | nil => rfl
  | cons c rest =>
    obtain ⟨k, b⟩ := c
    simp only [cellsWf, Bool.and_eq_true, decide_eq_true_eq] at h ⊢
    exact ⟨⟨⟨by omega, h.1.1.2⟩, h.1.2⟩, h.2⟩

/-- The cells of a byte sequence are canonical. -/
theorem cellsOf_wf (bytes : List Byte) (i hi : Nat) (h : i + bytes.length ≤ hi) :
    cellsWf i hi (cellsOf i bytes) = true := by
  induction bytes generalizing i with
  | nil => rfl
  | cons b rest ih =>
    rw [List.length_cons] at h
    rw [cellsOf]
    split
    · exact cellsWf_mono _ (i + 1) i hi (ih (i + 1) (by omega)) (by omega)
    · rename_i hb
      simp only [cellsWf, Bool.and_eq_true, decide_eq_true_eq, bne_iff_ne, ne_eq]
      exact ⟨⟨⟨le_rfl, by omega⟩, hb⟩, ih (i + 1) (by omega)⟩

/-- The byte listed at an offset is the byte of the sequence there. -/
theorem cellByte_cellsOf (bytes : List Byte) (i a : Nat) :
    cellByte (cellsOf i bytes) (i + a) = bytes.getD a 0 := by
  induction bytes generalizing i a with
  | nil => simp [cellsOf]
  | cons b rest ih =>
    cases a with
    | zero =>
      rw [cellsOf]
      split
      · rename_i hb
        simp [hb, cellByte_below _ (i + 1) _ i (cellsOf_wf rest (i + 1) _ le_rfl)]
      · simp
    | succ n =>
      have hn := ih (i + 1) n
      rw [show i + 1 + n = i + (n + 1) by omega] at hn
      rw [cellsOf]
      split
      · simpa using hn
      · simpa using hn

/-- Canonical cells are determined by the bytes they list. -/
theorem cellsWf_ext (c d : List Host.Cell) (lo hi : Nat) (hc : cellsWf lo hi c = true) (hd : cellsWf lo hi d = true)
    (h : ∀ a, a < hi → cellByte c a = cellByte d a) : c = d := by
  induction c generalizing d lo with
  | nil =>
    cases d with
    | nil => rfl
    | cons e rest =>
      obtain ⟨k, b⟩ := e
      simp only [cellsWf, Bool.and_eq_true, decide_eq_true_eq, bne_iff_ne, ne_eq] at hd
      exact absurd (h k hd.1.1.2).symm (by simpa using hd.1.2)
  | cons e rest ih =>
    obtain ⟨k, b⟩ := e
    have hc' := hc
    simp only [cellsWf, Bool.and_eq_true, decide_eq_true_eq, bne_iff_ne, ne_eq] at hc
    cases d with
    | nil => exact absurd (h k hc.1.1.2) (by simpa using hc.1.2)
    | cons e' rest' =>
      obtain ⟨k', b'⟩ := e'
      simp only [cellsWf, Bool.and_eq_true, decide_eq_true_eq, bne_iff_ne, ne_eq] at hd
      have hk : k = k' := by
        rcases Nat.lt_trichotomy k k' with hlt | heq | hgt
        · have := h k hc.1.1.2
          rw [cellByte_cons, if_pos rfl, cellByte_cons, if_neg (by omega),
            cellByte_below rest' (k' + 1) hi k hd.2 (by omega)] at this
          exact absurd this hc.1.2
        · exact heq
        · have := h k' hd.1.1.2
          rw [cellByte_cons, if_neg (by omega), cellByte_below rest (k + 1) hi k' hc.2 (by omega),
            cellByte_cons, if_pos rfl] at this
          exact absurd this.symm hd.1.2
      subst hk
      have hb : b = b' := by simpa using h k hc.1.1.2
      subst hb
      congr 1
      refine ih rest' (k + 1) hc.2 hd.2 fun a ha => ?_
      by_cases hka : k = a
      · subst hka
        rw [cellByte_below rest (k + 1) hi k hc.2 (by omega), cellByte_below rest' (k + 1) hi k hd.2 (by omega)]
      · simpa [hka] using h a ha

/-! ### Buffers -/

/-- The buffer made of a byte sequence is in canonical form. -/
theorem Memory.ofBytes_wf (bytes : List Byte) : (Memory.ofBytes bytes).wf = true :=
  cellsOf_wf bytes 0 bytes.length (by omega)

/-- The empty buffer is in canonical form. -/
theorem Memory.empty_wf : Memory.empty.wf = true := rfl

@[simp] theorem Memory.ofBytes_len (bytes : List Byte) : (Memory.ofBytes bytes).len = bytes.length := rfl

@[simp] theorem Memory.ofBytes_byteAt (bytes : List Byte) (a : Nat) :
    (Memory.ofBytes bytes).byteAt a = bytes.getD a 0 := by
  simpa [Memory.byteAt, Memory.ofBytes] using cellByte_cellsOf bytes 0 a

/-- A buffer in canonical form holds nothing outside its length. -/
theorem Memory.byteAt_outside (m : Memory) (h : m.wf = true) (a : Nat) (ha : m.len ≤ a) : m.byteAt a = 0 := by
  have key : ∀ (cells : List Host.Cell) (lo : Nat), cellsWf lo m.len cells = true → cellByte cells a = 0 := by
    intro cells
    induction cells with
    | nil => intro _ _; rfl
    | cons c rest ih =>
      intro lo hw
      obtain ⟨k, b⟩ := c
      simp only [cellsWf, Bool.and_eq_true, decide_eq_true_eq] at hw
      rw [cellByte_cons, if_neg (by omega), ih (k + 1) hw.2]
  exact key m.cells 0 h

/-- Two buffers in canonical form with the same length and the same bytes are the same data. -/
theorem Memory.ext_of_wf (m n : Memory) (hm : m.wf = true) (hn : n.wf = true) (hl : m.len = n.len)
    (h : ∀ a, a < m.len → m.byteAt a = n.byteAt a) : m = n := by
  obtain ⟨lm, cm⟩ := m
  obtain ⟨ln, cn⟩ := n
  obtain rfl : lm = ln := hl
  congr 1
  exact cellsWf_ext cm cn 0 lm hm hn h

@[simp] theorem Memory.toBytes_length (m : Memory) : m.toBytes.length = m.len := by simp [Memory.toBytes]

/-- The bytes of the buffer that a byte sequence is are that sequence. -/
theorem Memory.toBytes_ofBytes (bytes : List Byte) : (Memory.ofBytes bytes).toBytes = bytes := by
  apply List.ext_getElem (by simp)
  intro i h₁ h₂
  simp [Memory.toBytes, h₂]

/-- A buffer in canonical form is the buffer that its bytes are. -/
theorem Memory.ofBytes_toBytes (m : Memory) (h : m.wf = true) : Memory.ofBytes m.toBytes = m := by
  refine Memory.ext_of_wf _ _ (Memory.ofBytes_wf _) h (by simp) fun a ha => ?_
  have ha' : a < m.len := by simpa using ha
  simp [Memory.toBytes, ha']

/-! ### The two reads -/

/-- Inside the buffer a read of one byte answers the byte. -/
theorem Memory.read1_inside (m : Memory) (a : Nat) (h : a < m.len) : m.read1 a = .ok (m.byteAt a) := if_pos h

/-- Outside the buffer a read of one byte is a fault. -/
theorem Memory.read1_outside (m : Memory) (a : Nat) (h : m.len ≤ a) : m.read1 a = .error (.romOutOfBounds a 1) :=
  if_neg (by omega)

/-- Inside the buffer a read of several bytes answers them. -/
theorem Memory.readN_inside (m : Memory) (a n : Nat) (h : a + n ≤ m.len) : m.readN a n = .ok (m.slice a n) := if_pos h

/-- A read that reaches outside the buffer is a fault. -/
theorem Memory.readN_outside (m : Memory) (a n : Nat) (h : m.len < a + n) : m.readN a n = .error (.romOutOfBounds a n) :=
  if_neg (by omega)

/-- Element `i` of a read of several bytes is the byte at that offset. -/
@[simp] theorem Memory.slice_getElem (m : Memory) (a n i : Nat) (h : i < n) : (m.slice a n)[i] = m.byteAt (a + i) := by
  simp [Memory.slice]

@[simp] theorem Memory.slice_toList (m : Memory) (a n : Nat) :
    (m.slice a n).toList = (List.range n).map fun i => m.byteAt (a + i) := by
  simp [Memory.slice, Vector.toList]

/-- Two buffers that agree on a range have the same slice of it. -/
theorem Memory.slice_congr (m m' : Memory) (a n : Nat) (h : ∀ i, i < n → m.byteAt (a + i) = m'.byteAt (a + i)) :
    m.slice a n = m'.slice a n := by
  apply Vector.ext
  intro i hi
  simp [h i hi]

end Sys2Proof.Machine
end

