-- ==== Sys2Proof/Laws/State.lean ====
section
/-! SUPPORT. One lemma per field per update, for HDV and for HDV and host together, and the fields of the reset state: no later
proof unfolds a record update. -/

namespace Sys2Proof.Machine

/-! ### The reset state -/

@[simp] theorem State.reset_toHdv : State.reset.toHdv = Hdv.reset := rfl
@[simp] theorem Hdv.reset_hdr : Hdv.reset.hdr = none := rfl
@[simp] theorem Hdv.reset_logoRes : Hdv.reset.logoRes = .notRun := rfl
@[simp] theorem Hdv.reset_hckRes : Hdv.reset.hckRes = .notRun := rfl
@[simp] theorem Hdv.reset_gckRes : Hdv.reset.gckRes = .notRun := rfl
@[simp] theorem Hdv.reset_errTrunc : Hdv.reset.errTrunc = false := rfl
@[simp] theorem Hdv.reset_errNohdr : Hdv.reset.errNohdr = false := rfl
@[simp] theorem Hdv.reset_errCmd : Hdv.reset.errCmd = false := rfl
@[simp] theorem Hdv.reset_last : Hdv.reset.last = .ok := rfl
@[simp] theorem Hdv.reset_hckCalc : Hdv.reset.hckCalc = none := rfl
@[simp] theorem Hdv.reset_gckCalc : Hdv.reset.gckCalc = none := rfl
@[simp] theorem State.reset_rom : State.reset.rom = Memory.empty := rfl
@[simp] theorem State.reset_script : State.reset.script = [] := rfl
@[simp] theorem State.reset_readData : State.reset.readData = .notRead := rfl

/-! ### Hdv.endWith -/

@[simp] theorem Hdv.endWith_hdr (o : CmdOutcome) (d : Hdv) : (d.endWith o).hdr = d.hdr := rfl
@[simp] theorem Hdv.endWith_logoRes (o : CmdOutcome) (d : Hdv) : (d.endWith o).logoRes = d.logoRes := rfl
@[simp] theorem Hdv.endWith_hckRes (o : CmdOutcome) (d : Hdv) : (d.endWith o).hckRes = d.hckRes := rfl
@[simp] theorem Hdv.endWith_gckRes (o : CmdOutcome) (d : Hdv) : (d.endWith o).gckRes = d.gckRes := rfl
@[simp] theorem Hdv.endWith_errTrunc (o : CmdOutcome) (d : Hdv) : (d.endWith o).errTrunc = (d.errTrunc || o == .truncatedInput) := rfl
@[simp] theorem Hdv.endWith_errNohdr (o : CmdOutcome) (d : Hdv) : (d.endWith o).errNohdr = (d.errNohdr || o == .noHeader) := rfl
@[simp] theorem Hdv.endWith_errCmd (o : CmdOutcome) (d : Hdv) : (d.endWith o).errCmd = (d.errCmd || o == .reservedCommand) := rfl
@[simp] theorem Hdv.endWith_last (o : CmdOutcome) (d : Hdv) : (d.endWith o).last = o := rfl
@[simp] theorem Hdv.endWith_hckCalc (o : CmdOutcome) (d : Hdv) : (d.endWith o).hckCalc = d.hckCalc := rfl
@[simp] theorem Hdv.endWith_gckCalc (o : CmdOutcome) (d : Hdv) : (d.endWith o).gckCalc = d.gckCalc := rfl

/-! ### Hdv.setRecord -/

@[simp] theorem Hdv.setRecord_hdr (h : Option Header) (d : Hdv) : (d.setRecord h).hdr = h := rfl
@[simp] theorem Hdv.setRecord_logoRes (h : Option Header) (d : Hdv) : (d.setRecord h).logoRes = .notRun := rfl
@[simp] theorem Hdv.setRecord_hckRes (h : Option Header) (d : Hdv) : (d.setRecord h).hckRes = .notRun := rfl
@[simp] theorem Hdv.setRecord_gckRes (h : Option Header) (d : Hdv) : (d.setRecord h).gckRes = .notRun := rfl
@[simp] theorem Hdv.setRecord_errTrunc (h : Option Header) (d : Hdv) : (d.setRecord h).errTrunc = d.errTrunc := rfl
@[simp] theorem Hdv.setRecord_errNohdr (h : Option Header) (d : Hdv) : (d.setRecord h).errNohdr = d.errNohdr := rfl
@[simp] theorem Hdv.setRecord_errCmd (h : Option Header) (d : Hdv) : (d.setRecord h).errCmd = d.errCmd := rfl
@[simp] theorem Hdv.setRecord_last (h : Option Header) (d : Hdv) : (d.setRecord h).last = d.last := rfl
@[simp] theorem Hdv.setRecord_hckCalc (h : Option Header) (d : Hdv) : (d.setRecord h).hckCalc = none := rfl
@[simp] theorem Hdv.setRecord_gckCalc (h : Option Header) (d : Hdv) : (d.setRecord h).gckCalc = none := rfl

/-! ### Hdv.setLogo -/

@[simp] theorem Hdv.setLogo_hdr (r : CheckResult) (d : Hdv) : (d.setLogo r).hdr = d.hdr := rfl
@[simp] theorem Hdv.setLogo_logoRes (r : CheckResult) (d : Hdv) : (d.setLogo r).logoRes = r := rfl
@[simp] theorem Hdv.setLogo_hckRes (r : CheckResult) (d : Hdv) : (d.setLogo r).hckRes = d.hckRes := rfl
@[simp] theorem Hdv.setLogo_gckRes (r : CheckResult) (d : Hdv) : (d.setLogo r).gckRes = d.gckRes := rfl
@[simp] theorem Hdv.setLogo_errTrunc (r : CheckResult) (d : Hdv) : (d.setLogo r).errTrunc = d.errTrunc := rfl
@[simp] theorem Hdv.setLogo_errNohdr (r : CheckResult) (d : Hdv) : (d.setLogo r).errNohdr = d.errNohdr := rfl
@[simp] theorem Hdv.setLogo_errCmd (r : CheckResult) (d : Hdv) : (d.setLogo r).errCmd = d.errCmd := rfl
@[simp] theorem Hdv.setLogo_last (r : CheckResult) (d : Hdv) : (d.setLogo r).last = d.last := rfl
@[simp] theorem Hdv.setLogo_hckCalc (r : CheckResult) (d : Hdv) : (d.setLogo r).hckCalc = d.hckCalc := rfl
@[simp] theorem Hdv.setLogo_gckCalc (r : CheckResult) (d : Hdv) : (d.setLogo r).gckCalc = d.gckCalc := rfl

/-! ### Hdv.setHck -/

@[simp] theorem Hdv.setHck_hdr (x : Byte) (r : CheckResult) (d : Hdv) : (d.setHck x r).hdr = d.hdr := rfl
@[simp] theorem Hdv.setHck_logoRes (x : Byte) (r : CheckResult) (d : Hdv) : (d.setHck x r).logoRes = d.logoRes := rfl
@[simp] theorem Hdv.setHck_hckRes (x : Byte) (r : CheckResult) (d : Hdv) : (d.setHck x r).hckRes = r := rfl
@[simp] theorem Hdv.setHck_gckRes (x : Byte) (r : CheckResult) (d : Hdv) : (d.setHck x r).gckRes = d.gckRes := rfl
@[simp] theorem Hdv.setHck_errTrunc (x : Byte) (r : CheckResult) (d : Hdv) : (d.setHck x r).errTrunc = d.errTrunc := rfl
@[simp] theorem Hdv.setHck_errNohdr (x : Byte) (r : CheckResult) (d : Hdv) : (d.setHck x r).errNohdr = d.errNohdr := rfl
@[simp] theorem Hdv.setHck_errCmd (x : Byte) (r : CheckResult) (d : Hdv) : (d.setHck x r).errCmd = d.errCmd := rfl
@[simp] theorem Hdv.setHck_last (x : Byte) (r : CheckResult) (d : Hdv) : (d.setHck x r).last = d.last := rfl
@[simp] theorem Hdv.setHck_hckCalc (x : Byte) (r : CheckResult) (d : Hdv) : (d.setHck x r).hckCalc = some x := rfl
@[simp] theorem Hdv.setHck_gckCalc (x : Byte) (r : CheckResult) (d : Hdv) : (d.setHck x r).gckCalc = d.gckCalc := rfl

/-! ### Hdv.setGck -/

@[simp] theorem Hdv.setGck_hdr (x : Half) (r : CheckResult) (d : Hdv) : (d.setGck x r).hdr = d.hdr := rfl
@[simp] theorem Hdv.setGck_logoRes (x : Half) (r : CheckResult) (d : Hdv) : (d.setGck x r).logoRes = d.logoRes := rfl
@[simp] theorem Hdv.setGck_hckRes (x : Half) (r : CheckResult) (d : Hdv) : (d.setGck x r).hckRes = d.hckRes := rfl
@[simp] theorem Hdv.setGck_gckRes (x : Half) (r : CheckResult) (d : Hdv) : (d.setGck x r).gckRes = r := rfl
@[simp] theorem Hdv.setGck_errTrunc (x : Half) (r : CheckResult) (d : Hdv) : (d.setGck x r).errTrunc = d.errTrunc := rfl
@[simp] theorem Hdv.setGck_errNohdr (x : Half) (r : CheckResult) (d : Hdv) : (d.setGck x r).errNohdr = d.errNohdr := rfl
@[simp] theorem Hdv.setGck_errCmd (x : Half) (r : CheckResult) (d : Hdv) : (d.setGck x r).errCmd = d.errCmd := rfl
@[simp] theorem Hdv.setGck_last (x : Half) (r : CheckResult) (d : Hdv) : (d.setGck x r).last = d.last := rfl
@[simp] theorem Hdv.setGck_hckCalc (x : Half) (r : CheckResult) (d : Hdv) : (d.setGck x r).hckCalc = d.hckCalc := rfl
@[simp] theorem Hdv.setGck_gckCalc (x : Half) (r : CheckResult) (d : Hdv) : (d.setGck x r).gckCalc = some x := rfl

/-! ### State.setHdv -/

@[simp] theorem State.setHdv_toHdv (d : Hdv) (s : State) : (s.setHdv d).toHdv = d := rfl
@[simp] theorem State.setHdv_rom (d : Hdv) (s : State) : (s.setHdv d).rom = s.rom := rfl
@[simp] theorem State.setHdv_script (d : Hdv) (s : State) : (s.setHdv d).script = s.script := rfl
@[simp] theorem State.setHdv_readData (d : Hdv) (s : State) : (s.setHdv d).readData = s.readData := rfl

/-! ### State.applyReset -/

@[simp] theorem State.applyReset_toHdv (s : State) : (s.applyReset).toHdv = Hdv.reset := rfl
@[simp] theorem State.applyReset_rom (s : State) : (s.applyReset).rom = s.rom := rfl
@[simp] theorem State.applyReset_script (s : State) : (s.applyReset).script = s.script := rfl
@[simp] theorem State.applyReset_readData (s : State) : (s.applyReset).readData = s.readData := rfl

/-! ### State.presentBuffer -/

@[simp] theorem State.presentBuffer_toHdv (bytes : List Byte) (s : State) : (s.presentBuffer bytes).toHdv = s.toHdv := rfl
@[simp] theorem State.presentBuffer_rom (bytes : List Byte) (s : State) : (s.presentBuffer bytes).rom = Memory.ofBytes bytes := rfl
@[simp] theorem State.presentBuffer_script (bytes : List Byte) (s : State) : (s.presentBuffer bytes).script = s.script := rfl
@[simp] theorem State.presentBuffer_readData (bytes : List Byte) (s : State) : (s.presentBuffer bytes).readData = s.readData := rfl

/-! ### State.receive -/

@[simp] theorem State.receive_toHdv (r : ReadResult) (s : State) : (s.receive r).toHdv = s.toHdv := rfl
@[simp] theorem State.receive_rom (r : ReadResult) (s : State) : (s.receive r).rom = s.rom := rfl
@[simp] theorem State.receive_script (r : ReadResult) (s : State) : (s.receive r).script = s.script := rfl
@[simp] theorem State.receive_readData (r : ReadResult) (s : State) : (s.receive r).readData = r := rfl

/-! ### State.placeCommand -/

@[simp] theorem State.placeCommand_toHdv (c : BitVec 3) (s : State) : (s.placeCommand c).toHdv = s.toHdv := rfl
@[simp] theorem State.placeCommand_rom (c : BitVec 3) (s : State) : (s.placeCommand c).rom = s.rom := rfl
@[simp] theorem State.placeCommand_script (c : BitVec 3) (s : State) : (s.placeCommand c).script = .command c :: s.script := rfl
@[simp] theorem State.placeCommand_readData (c : BitVec 3) (s : State) : (s.placeCommand c).readData = s.readData := rfl

/-! ### State.takeAction and State.idle -/

@[simp] theorem State.takeAction_nil (s : State) (h : s.script = []) : s.takeAction = none := by
  simp [State.takeAction, h]

@[simp] theorem State.takeAction_cons (s : State) (a : HostAction) (rest : List HostAction) (h : s.script = a :: rest) :
    s.takeAction = some (a, { s with script := rest }) := by
  simp [State.takeAction, h]

/-- All that taking an action can do: nothing is waiting, or the first action is taken off the script. -/
theorem State.takeAction_cases (s : State) :
    (s.script = [] ∧ s.takeAction = none) ∨
      ∃ a rest, s.script = a :: rest ∧ s.takeAction = some (a, { s with script := rest }) := by
  cases h : s.script with
  | nil => exact .inl ⟨rfl, s.takeAction_nil h⟩
  | cons a rest => exact .inr ⟨a, rest, rfl, s.takeAction_cons a rest h⟩

@[simp] theorem State.idle_eq (s : State) : s.idle = s := rfl

end Sys2Proof.Machine
end

