-- ==== Sys2Proof/Laws/Ops.lean ====
section
/-! SUPPORT. One lemma per shared operation that says once everything it can do: the shared parts of the commands, the loads of
the header and the two checksum loops. -/

namespace Sys2Proof.Machine

/-! ### Shared parts of the commands -/

/-- All that a validator's first test can do. -/
theorem Hdv.withRecord_cases (d : Hdv) (k : Header → HdvOutcome) :
    (d.hdr = none ∧ d.withRecord k = .next (d.endWith .noHeader)) ∨ ∃ h, d.hdr = some h ∧ d.withRecord k = k h := by
  cases hh : d.hdr with
  | none => exact .inl ⟨rfl, by simp [Hdv.withRecord, hh]⟩
  | some h => exact .inr ⟨h, rfl, by simp [Hdv.withRecord, hh]⟩

theorem Hdv.withRecord_none (d : Hdv) (k : Header → HdvOutcome) (h : d.hdr = none) :
    d.withRecord k = .next (d.endWith .noHeader) := by simp [Hdv.withRecord, h]

theorem Hdv.withRecord_some (d : Hdv) (k : Header → HdvOutcome) (h : Header) (hh : d.hdr = some h) :
    d.withRecord k = k h := by simp [Hdv.withRecord, hh]

theorem Hdv.withBuffer_short (d : Hdv) (rom : Memory) (k : HdvOutcome) (h : rom.len < Config.minLen) :
    d.withBuffer rom k = .next (d.endWith .truncatedInput) := if_pos h

theorem Hdv.withBuffer_long (d : Hdv) (rom : Memory) (k : HdvOutcome) (h : Config.minLen ≤ rom.len) :
    d.withBuffer rom k = k := if_neg (by omega)

@[simp] theorem onRead_ok {α : Type} (a : α) (k : α → Hdv) : onRead (.ok a) k = .next (k a) := rfl

@[simp] theorem onRead_error {α : Type} (f : Fault) (k : α → Hdv) : onRead (.error f) k = .fault f := rfl

/-- A read goes on to a next state exactly when it answers a value. -/
theorem onRead_next {α : Type} (r : Except Fault α) (k : α → Hdv) (t : Hdv) (h : onRead r k = .next t) :
    ∃ a, r = .ok a ∧ t = k a := by
  cases r with
  | ok a => exact ⟨a, rfl, by simpa using h.symm⟩
  | error f => simp at h

/-! ### The loads of the header -/

/-- The header of a buffer, field by field, as a value: what `loadHeader` answers where the buffer is long enough. -/
def headerOf (m : Memory) : Header where
  entryPoint := m.slice 0x0100 4
  nintendoLogo := m.slice 0x0104 48
  title := m.slice 0x0134 16
  manufacturerCode := m.slice 0x013F 4
  cgbFlag := m.byteAt 0x0143
  oldLicenseeCode := m.byteAt 0x014B
  newLicenseeCode := m.slice 0x0144 2
  sgbFlag := m.byteAt 0x0146
  cartridgeType := m.byteAt 0x0147
  romSize := m.byteAt 0x0148
  ramSize := m.byteAt 0x0149
  destinationCode := m.byteAt 0x014A
  versionNumber := m.byteAt 0x014C
  headerChecksum := m.byteAt 0x014D
  globalChecksum := bigEndian (m.byteAt 0x014E) (m.byteAt 0x014F)

/-- No load of the header reaches outside a buffer of at least `MIN_LEN` bytes (R32). -/
theorem loadHeader_inside (m : Memory) (h : Config.minLen ≤ m.len) : loadHeader m = .ok (headerOf m) := by
  rw [Config.minLen] at h
  simp only [loadHeader, loadEntryPoint, loadNintendoLogo, loadTitle, loadManufacturerCode, loadCgbFlag,
    loadOldLicenseeCode, loadNewLicenseeCode, loadSgbFlag, loadCartridgeType, loadRomSize, loadRamSize,
    loadDestinationCode, loadVersionNumber, loadHeaderChecksum, loadGlobalChecksum]
  rw [m.readN_inside 0x0100 4 (by omega), m.readN_inside 0x0104 48 (by omega), m.readN_inside 0x0134 16 (by omega),
    m.readN_inside 0x013F 4 (by omega), m.read1_inside 0x0143 (by omega), m.read1_inside 0x014B (by omega),
    m.readN_inside 0x0144 2 (by omega), m.read1_inside 0x0146 (by omega), m.read1_inside 0x0147 (by omega),
    m.read1_inside 0x0148 (by omega), m.read1_inside 0x0149 (by omega), m.read1_inside 0x014A (by omega),
    m.read1_inside 0x014C (by omega), m.read1_inside 0x014D (by omega), m.read1_inside 0x014E (by omega),
    m.read1_inside 0x014F (by omega)]
  rfl

/-! ### The checksum loops -/

/-- The header-checksum loop inside the buffer: a fold over the bytes of the span. -/
theorem hckFrom_inside (m : Memory) (n i : Nat) (x : Byte) (h : i + n ≤ m.len) :
    hckFrom m n i x = .ok (((List.range n).map fun j => m.byteAt (i + j)).foldl hckStep x) := by
  induction n generalizing i x with
  | zero => rfl
  | succ n ih =>
    have hr : (List.range (n + 1)).map (fun j => m.byteAt (i + j)) =
        m.byteAt i :: (List.range n).map fun j => m.byteAt (i + 1 + j) := by
      rw [List.range_succ_eq_map, List.map_cons, List.map_map]
      refine congrArg₂ List.cons rfl (List.map_congr_left fun j _ => ?_)
      simp only [Function.comp, Nat.succ_eq_add_one]
      congr 1
      omega
    rw [hr, List.foldl_cons, ← ih (i + 1) (hckStep x (m.byteAt i)) (by omega), hckFrom, m.read1_inside i (by omega)]
    rfl

/-- What one offset adds to the global checksum: nothing at the two offsets of the stored value. -/
def gckTerm (m : Memory) (x : Half) (i : Nat) : Half :=
  if isGlobalChecksumOffset i then x else gckStep x (m.byteAt i)

/-- The global-checksum loop inside the buffer: a fold over the offsets. -/
theorem gckFrom_inside (m : Memory) (n i : Nat) (x : Half) (h : i + n ≤ m.len) :
    gckFrom m n i x = .ok ((List.range' i n).foldl (gckTerm m) x) := by
  induction n generalizing i x with
  | zero => rfl
  | succ n ih =>
    rw [List.range'_succ, List.foldl_cons, ← ih (i + 1) (gckTerm m x i) (by omega), gckFrom, gckTerm]
    split
    · rfl
    · rw [m.read1_inside i (by omega)]
      rfl

/-- The header checksum of a long enough buffer is a value (R32). -/
theorem hck_inside (m : Memory) (h : Config.minLen ≤ m.len) : ∃ x, hck m = .ok x :=
  ⟨_, hckFrom_inside m _ _ _ (by rw [Config.minLen] at h; rw [Config.hckSpan]; omega)⟩

/-- The global checksum of any buffer is a value (R32). -/
theorem gck_inside (m : Memory) : ∃ x, gck m = .ok x := ⟨_, gckFrom_inside m _ _ _ (by omega)⟩

/-! ### The ends of the validators -/

/-- All that the end of VLOGO can do. -/
theorem Hdv.concludeLogo_cases (h : Header) (d : Hdv) :
    (h.nintendoLogo = Config.logoRef ∧ d.concludeLogo h = (d.setLogo .pass).endWith .ok) ∨
      (h.nintendoLogo ≠ Config.logoRef ∧ d.concludeLogo h = (d.setLogo .fail).endWith .logoMismatch) := by
  by_cases hl : h.nintendoLogo = Config.logoRef
  · exact .inl ⟨hl, if_pos hl⟩
  · exact .inr ⟨hl, if_neg hl⟩

/-- All that the end of VHCK can do. -/
theorem Hdv.concludeHck_cases (h : Header) (x : Byte) (d : Hdv) :
    (x = h.headerChecksum ∧ d.concludeHck h x = (d.setHck x .pass).endWith .ok) ∨
      (x ≠ h.headerChecksum ∧ d.concludeHck h x = (d.setHck x .fail).endWith .headerChecksumMismatch) := by
  by_cases hx : x = h.headerChecksum
  · exact .inl ⟨hx, if_pos hx⟩
  · exact .inr ⟨hx, if_neg hx⟩

/-- All that the end of VGCK can do. -/
theorem Hdv.concludeGck_cases (h : Header) (x : Half) (d : Hdv) :
    (x = h.globalChecksum ∧ d.concludeGck h x = (d.setGck x .pass).endWith .ok) ∨
      (x ≠ h.globalChecksum ∧ d.concludeGck h x = (d.setGck x .fail).endWith .globalChecksumMismatch) := by
  by_cases hx : x = h.globalChecksum
  · exact .inl ⟨hx, if_pos hx⟩
  · exact .inr ⟨hx, if_neg hx⟩

/-! ### HDV and host together -/

/-- A transition of HDV that answers a next state moves HDV there and leaves the host's side alone. -/
theorem State.onHdv_next (s : State) (f : Memory → Hdv → HdvOutcome) (t : State) (h : s.onHdv f = .next t) :
    ∃ d, f s.rom s.toHdv = .next d ∧ t = s.setHdv d := by
  cases hf : f s.rom s.toHdv with
  | next d => simp only [State.onHdv, hf] at h; injection h with h; exact ⟨d, rfl, h.symm⟩
  | fault e => simp [State.onHdv, hf] at h
  | refused r => simp [State.onHdv, hf] at h

theorem State.onHdv_of_next (s : State) (f : Memory → Hdv → HdvOutcome) (d : Hdv) (h : f s.rom s.toHdv = .next d) :
    s.onHdv f = .next (s.setHdv d) := by simp only [State.onHdv, h]

end Sys2Proof.Machine
end

