-- ==== Sys2Proof/Laws/Exec.lean ====
section
/-! SUPPORT. Said once: all that a command, a register read and a step can do when they answer a next state. -/

namespace Sys2Proof.Machine

/-! ### A command as a transition of HDV -/

/-- All that a command can do to HDV, with the conditions under which it does it. -/
theorem runCommand_cases (i : Instr) (rom : Memory) (d d' : Hdv) (h : runCommand i rom d = .next d') :
    (i = .nop ∧ d' = d) ∨
    ((i = .reserved5 ∨ i = .reserved6 ∨ i = .reserved7) ∧ d' = d.endWith .reservedCommand) ∨
    (i = .decode ∧ rom.len < Config.minLen ∧ d' = (d.setRecord none).endWith .truncatedInput) ∨
    (i = .decode ∧ Config.minLen ≤ rom.len ∧ d' = (d.setRecord (some (headerOf rom))).endWith .ok) ∨
    ((i = .vlogo ∨ i = .vhck ∨ i = .vgck) ∧ d.hdr = none ∧ d' = d.endWith .noHeader) ∨
    (∃ h, i = .vlogo ∧ d.hdr = some h ∧ d' = d.concludeLogo h) ∨
    (∃ h, (i = .vhck ∨ i = .vgck) ∧ d.hdr = some h ∧ rom.len < Config.minLen ∧ d' = d.endWith .truncatedInput) ∨
    (∃ h x, i = .vhck ∧ d.hdr = some h ∧ Config.minLen ≤ rom.len ∧ hck rom = .ok x ∧ d' = d.concludeHck h x) ∨
    (∃ h x, i = .vgck ∧ d.hdr = some h ∧ Config.minLen ≤ rom.len ∧ gck rom = .ok x ∧ d' = d.concludeGck h x) := by
  cases i with
  | nop => injection h with h; exact .inl ⟨rfl, h.symm⟩
  | reserved5 => injection h with h; exact .inr (.inl ⟨.inl rfl, h.symm⟩)
  | reserved6 => injection h with h; exact .inr (.inl ⟨.inr (.inl rfl), h.symm⟩)
  | reserved7 => injection h with h; exact .inr (.inl ⟨.inr (.inr rfl), h.symm⟩)
  | decode =>
    simp only [runCommand, runDecode] at h
    by_cases hl : rom.len < Config.minLen
    · rw [if_pos hl] at h
      injection h with h
      exact .inr (.inr (.inl ⟨rfl, hl, h.symm⟩))
    · rw [if_neg hl, loadHeader_inside _ (by omega)] at h
      injection h with h
      exact .inr (.inr (.inr (.inl ⟨rfl, by omega, h.symm⟩)))
  | vlogo =>
    simp only [runCommand, runVlogo] at h
    obtain ⟨hn, he⟩ | ⟨hd, hh, he⟩ := Hdv.withRecord_cases d fun h => .next (d.concludeLogo h)
    all_goals rw [he] at h; injection h with h
    · exact .inr (.inr (.inr (.inr (.inl ⟨.inl rfl, hn, h.symm⟩))))
    · exact .inr (.inr (.inr (.inr (.inr (.inl ⟨hd, rfl, hh, h.symm⟩)))))
  | vhck =>
    simp only [runCommand, runVhck] at h
    obtain ⟨hn, he⟩ | ⟨hd, hh, he⟩ :=
      Hdv.withRecord_cases d fun h => d.withBuffer rom (onRead (hck rom) fun x => d.concludeHck h x)
    all_goals rw [he] at h
    · injection h with h
      exact .inr (.inr (.inr (.inr (.inl ⟨.inr (.inl rfl), hn, h.symm⟩))))
    · by_cases hl : rom.len < Config.minLen
      · rw [Hdv.withBuffer_short _ _ _ hl] at h
        injection h with h
        exact .inr (.inr (.inr (.inr (.inr (.inr (.inl ⟨hd, .inl rfl, hh, hl, h.symm⟩))))))
      · rw [Hdv.withBuffer_long _ _ _ (by omega)] at h
        obtain ⟨x, hx, rfl⟩ := onRead_next _ _ _ h
        exact .inr (.inr (.inr (.inr (.inr (.inr (.inr (.inl ⟨hd, x, rfl, hh, by omega, hx, rfl⟩)))))))
  | vgck =>
    simp only [runCommand, runVgck] at h
    obtain ⟨hn, he⟩ | ⟨hd, hh, he⟩ :=
      Hdv.withRecord_cases d fun h => d.withBuffer rom (onRead (gck rom) fun x => d.concludeGck h x)
    all_goals rw [he] at h
    · injection h with h
      exact .inr (.inr (.inr (.inr (.inl ⟨.inr (.inr rfl), hn, h.symm⟩))))
    · by_cases hl : rom.len < Config.minLen
      · rw [Hdv.withBuffer_short _ _ _ hl] at h
        injection h with h
        exact .inr (.inr (.inr (.inr (.inr (.inr (.inl ⟨hd, .inr rfl, hh, hl, h.symm⟩))))))
      · rw [Hdv.withBuffer_long _ _ _ (by omega)] at h
        obtain ⟨x, hx, rfl⟩ := onRead_next _ _ _ h
        exact .inr (.inr (.inr (.inr (.inr (.inr (.inr (.inr ⟨hd, x, rfl, hh, by omega, hx, rfl⟩)))))))

/-! ### HDV and host together -/

/-- A command is its transition of HDV, on the presented buffer, with the host's side left alone. -/
theorem exec_eq_onHdv (i : Instr) (s : State) : exec i s = s.onHdv (runCommand i) := by cases i <;> rfl

/-- The command that a word selects is HDV's own step on that word and the presented buffer (R28). -/
theorem exec_decodeCommand (c : BitVec 3) (s : State) : exec (decodeCommand c) s = s.onHdv (hdvStep c) :=
  exec_eq_onHdv _ s

/-- All that a command can do when it answers a next state: `runCommand_cases` says what becomes of HDV. -/
theorem exec_next {i : Instr} {s t : State} (h : exec i s = .next t) :
    ∃ d, runCommand i s.rom s.toHdv = .next d ∧ t = s.setHdv d :=
  s.onHdv_next _ t (exec_eq_onHdv i s ▸ h)

/-- All that a register read can give the host. -/
theorem Hdv.readRegister_cases (d : Hdv) (sel : BitVec 5) :
    (regOfSelect sel = none ∧ d.readRegister sel = .refused (.reservedSelect sel)) ∨
    (∃ r, regOfSelect sel = some r ∧ d.regValue r = none ∧ d.readRegister sel = .refused (.holdsNoValue r)) ∨
    (∃ r v, regOfSelect sel = some r ∧ d.regValue r = some v ∧ d.readRegister sel = .value v) := by
  cases hr : regOfSelect sel with
  | none => exact .inl ⟨rfl, by simp only [Hdv.readRegister, hr]⟩
  | some r =>
    cases hv : d.regValue r with
    | none => exact .inr (.inl ⟨r, rfl, hv, by simp only [Hdv.readRegister, hr, hv]⟩)
    | some v => exact .inr (.inr ⟨r, v, rfl, hv, by simp only [Hdv.readRegister, hr, hv]⟩)

/-- All that a step can do when it answers a next state. -/
theorem step_cases (s t : State) (h : step s = .next t) :
    (s.script = [] ∧ t = s) ∨
    (∃ rest, s.script = .reset :: rest ∧ t = ({ s with script := rest } : State).applyReset) ∨
    (∃ c rest, s.script = .command c :: rest ∧ exec (decodeCommand c) { s with script := rest } = .next t) ∨
    (∃ bytes rest, s.script = .present bytes :: rest ∧ t = ({ s with script := rest } : State).presentBuffer bytes) ∨
    (∃ sel rest, s.script = .read sel :: rest ∧ t = ({ s with script := rest } : State).receive (s.readRegister sel)) := by
  obtain ⟨hs, ht⟩ | ⟨a, rest, hs, ht⟩ := State.takeAction_cases s
  · simp only [step, ht] at h
    injection h with h
    exact .inl ⟨hs, h.symm⟩
  · cases a with
    | reset =>
      simp only [step, ht] at h
      injection h with h
      exact .inr (.inl ⟨rest, hs, h.symm⟩)
    | command c =>
      simp only [step, ht] at h
      exact .inr (.inr (.inl ⟨c, rest, hs, h⟩))
    | present bytes =>
      simp only [step, ht] at h
      injection h with h
      exact .inr (.inr (.inr (.inl ⟨bytes, rest, hs, h.symm⟩)))
    | read sel =>
      simp only [step, ht] at h
      injection h with h
      exact .inr (.inr (.inr (.inr ⟨sel, rest, hs, h.symm⟩)))

end Sys2Proof.Machine
end

