-- ==== Sys2Proof/Laws/PerInstr.lean ====
section
/-! SUPPORT. Statements per instruction about it as syntax: the byte form of a command decodes to that command and its opcode
table word reads as it, and to nothing but it. -/

namespace Sys2Proof.Laws.RoundTrip

/-- A command is well formed, its bytes decode to it, and the 8-bit table word of its code is read as it. -/
def Statement (i : Instr) : Prop :=
  i.wf = true ∧ decodeCommand (encodeCommand i) = i ∧ decodeBytes (encodeBytes i) = .ok i ∧
    decodeTableWord 8 (encodeCommand i).toNat = some i

theorem nop : Statement .nop := ⟨rfl, rfl, rfl, rfl⟩
theorem decode : Statement .decode := ⟨rfl, rfl, rfl, rfl⟩
theorem vlogo : Statement .vlogo := ⟨rfl, rfl, rfl, rfl⟩
theorem vhck : Statement .vhck := ⟨rfl, rfl, rfl, rfl⟩
theorem vgck : Statement .vgck := ⟨rfl, rfl, rfl, rfl⟩
theorem reserved5 : Statement .reserved5 := ⟨rfl, rfl, rfl, rfl⟩
theorem reserved6 : Statement .reserved6 := ⟨rfl, rfl, rfl, rfl⟩
theorem reserved7 : Statement .reserved7 := ⟨rfl, rfl, rfl, rfl⟩

end Sys2Proof.Laws.RoundTrip
end

