-- ==== Sys2Proof/Laws/Safety.lean ====
section
/-! SUPPORT. What the premise P_SAME_ROM gives: along a run that keeps it, the record and the computed checksums describe one
buffer. -/

namespace Sys2Proof.Machine

/-- A buffer of at least `MIN_LEN` bytes has a record, its header. -/
theorem recordOf_long (m : Memory) (h : Config.minLen ≤ m.len) : recordOf m = some (headerOf m) := by
  rw [recordOf, if_neg (by omega), loadHeader_inside m h]
  rfl

/-- A shorter buffer has none. -/
theorem recordOf_short (m : Memory) (h : m.len < Config.minLen) : recordOf m = none := if_pos h

/-- What remains of P_SAME_ROM after a command, for the buffer the most recent DECODE then was presented. -/
theorem sameRomFrom_command {decoded : Option Memory} {rom : Memory} {c : BitVec 3} {rest : List HostAction}
    (h : sameRomFrom decoded rom (.command c :: rest)) :
    (decodeCommand c = .decode ∧ sameRomFrom (some rom) rom rest) ∨
    (decodeCommand c ≠ .decode ∧ sameRomFrom decoded rom rest ∧
      (decodeCommand c = .vlogo ∨ decodeCommand c = .vhck ∨ decodeCommand c = .vgck → ∀ m, decoded = some m → rom = m)) := by
  cases hc : decodeCommand c <;> simp only [sameRomFrom, hc] at h <;> simp [h]
  all_goals exact h.1

/-- A run starts so: with P_RESET nothing describes an image yet. -/
theorem State.pReset_describesImage (s : State) (h : s.pReset) : s.DescribesImage none := by
  rw [State.pReset] at h
  rw [h]
  exact ⟨rfl, by simp, by simp⟩

/-- The ends of the validators leave the record alone, and write at most their own computed checksum. -/
theorem Hdv.concludeLogo_calcs (h : Header) (d : Hdv) :
    (d.concludeLogo h).hdr = d.hdr ∧ (d.concludeLogo h).hckCalc = d.hckCalc ∧ (d.concludeLogo h).gckCalc = d.gckCalc := by
  obtain ⟨-, e⟩ | ⟨-, e⟩ := Hdv.concludeLogo_cases h d <;> simp [e]

theorem Hdv.concludeHck_calcs (h : Header) (x : Byte) (d : Hdv) :
    (d.concludeHck h x).hdr = d.hdr ∧ (d.concludeHck h x).hckCalc = some x ∧ (d.concludeHck h x).gckCalc = d.gckCalc := by
  obtain ⟨-, e⟩ | ⟨-, e⟩ := Hdv.concludeHck_cases h x d <;> simp [e]

theorem Hdv.concludeGck_calcs (h : Header) (x : Half) (d : Hdv) :
    (d.concludeGck h x).hdr = d.hdr ∧ (d.concludeGck h x).hckCalc = d.hckCalc ∧ (d.concludeGck h x).gckCalc = some x := by
  obtain ⟨-, e⟩ | ⟨-, e⟩ := Hdv.concludeGck_cases h x d <;> simp [e]

/-- With a record there was a DECODE, so a validator that P_SAME_ROM speaks of is presented that very buffer. -/
theorem Hdv.DescribesImage.decoded_eq {decoded : Option Memory} {rom : Memory} {d : Hdv} {h : Header}
    (hd : d.DescribesImage decoded) (hh : d.hdr = some h) (hsame : ∀ m, decoded = some m → rom = m) :
    decoded = some rom := by
  cases decoded with
  | none => exact absurd (hd.record.symm.trans hh) (by simp)
  | some m => rw [hsame m rfl]

/-- A command under P_SAME_ROM keeps it that `HDR` and the computed checksums describe the buffer of the most recent DECODE. -/
theorem runCommand_describesImage {decoded : Option Memory} {rom : Memory} {d d' : Hdv} {i : Instr}
    (hd : d.DescribesImage decoded) (hsame : i = .vlogo ∨ i = .vhck ∨ i = .vgck → ∀ m, decoded = some m → rom = m)
    (h : runCommand i rom d = .next d') : d'.DescribesImage (if i = .decode then some rom else decoded) := by
  obtain ⟨rfl, rfl⟩ | ⟨hi, rfl⟩ | ⟨rfl, hl, rfl⟩ | ⟨rfl, hl, rfl⟩ | ⟨hi, -, rfl⟩ | ⟨hh, rfl, -, rfl⟩ | ⟨hh, hi, -, -, rfl⟩ |
    ⟨hh, x, rfl, he, -, hx, rfl⟩ | ⟨hh, x, rfl, he, -, hx, rfl⟩ := runCommand_cases i rom d d' h
  · exact hd
  · rw [if_neg (by rintro rfl; simp at hi)]
    exact ⟨hd.record, hd.hckOfImage, hd.gckOfImage⟩
  · exact ⟨by simp [recordOf_short _ hl], by simp, by simp⟩
  · exact ⟨by simp [recordOf_long _ hl], by simp, by simp⟩
  · rw [if_neg (by rintro rfl; simp at hi)]
    exact ⟨hd.record, hd.hckOfImage, hd.gckOfImage⟩
  · obtain ⟨e₁, e₂, e₃⟩ := Hdv.concludeLogo_calcs hh d
    exact ⟨e₁ ▸ hd.record, e₂ ▸ hd.hckOfImage, e₃ ▸ hd.gckOfImage⟩
  · rw [if_neg (by rintro rfl; simp at hi)]
    exact ⟨hd.record, hd.hckOfImage, hd.gckOfImage⟩
  · obtain ⟨e₁, e₂, e₃⟩ := Hdv.concludeHck_calcs hh x d
    refine ⟨e₁ ▸ hd.record, ?_, e₃ ▸ hd.gckOfImage⟩
    rintro y hy
    obtain rfl := Option.some.inj (e₂.symm.trans hy)
    exact ⟨rom, hd.decoded_eq he (hsame (.inr (.inl rfl))), hx⟩
  · obtain ⟨e₁, e₂, e₃⟩ := Hdv.concludeGck_calcs hh x d
    refine ⟨e₁ ▸ hd.record, e₂ ▸ hd.hckOfImage, ?_⟩
    rintro y hy
    obtain rfl := Option.some.inj (e₃.symm.trans hy)
    exact ⟨rom, hd.decoded_eq he (hsame (.inr (.inr rfl))), hx⟩

/-- A step of a run under P_SAME_ROM keeps the premise for the rest of the run, and keeps it that one image is described. -/
theorem step_describesImage {decoded : Option Memory} {s t : State} (hd : s.DescribesImage decoded)
    (hsame : sameRomFrom decoded s.rom s.script) (h : step s = .next t) :
    ∃ decoded', t.DescribesImage decoded' ∧ sameRomFrom decoded' t.rom t.script := by
  obtain ⟨-, rfl⟩ | ⟨rest, hs, rfl⟩ | ⟨c, rest, hs, he⟩ | ⟨bytes, rest, hs, rfl⟩ | ⟨sel, rest, hs, rfl⟩ := step_cases s t h
  · exact ⟨decoded, hd, hsame⟩
  · rw [hs] at hsame
    exact ⟨none, ⟨rfl, by simp, by simp⟩, hsame⟩
  · rw [hs] at hsame
    obtain ⟨d, hr, rfl⟩ := exec_next he
    obtain ⟨hc, hrest⟩ | ⟨hc, hrest, hv⟩ := sameRomFrom_command hsame
    · refine ⟨some s.rom, ?_, hrest⟩
      have := runCommand_describesImage hd (by simp [hc]) hr
      rwa [if_pos hc] at this
    · refine ⟨decoded, ?_, hrest⟩
      have := runCommand_describesImage hd hv hr
      rwa [if_neg hc] at this
  · rw [hs] at hsame
    exact ⟨decoded, hd, hsame⟩
  · rw [hs] at hsame
    exact ⟨decoded, hd, hsame⟩

end Sys2Proof.Machine
end

