-- ==== Sys2Proof/Tests/Slice0.lean ====
section
/-! SUPPORT. Tests against the vectors of spec/95_test_vectors.md and the examples of the rules, and a witness for every
statement with hypotheses. Expected values come from the spec; a test that needs a logo uses the parameter itself. -/

namespace Sys2Proof.Tests

open Sys2Proof.Machine

/-! ### Images and states (spec/95_test_vectors.md section 2) -/

/-- ROM_Z -/
def romZ : List Byte := List.replicate 0x0150 0x00

/-- ROM_F -/
def romF : List Byte := List.replicate 0x0150 0xFF

/-- The 80 header bytes of ROM_A -/
def headerA : List Byte :=
  [0x00, 0xC3, 0x50, 0x01] ++ logoCand.toList ++
  [0x54, 0x45, 0x53, 0x54, 0x00, 0x00, 0x00, 0x00, 0x00, 0x00, 0x00, 0x00] ++
  [0x00, 0x00, 0x00, 0x80, 0x30, 0x31, 0x03, 0x00, 0x00, 0x00, 0x01, 0x33, 0x00, 0x8F, 0x19, 0x41]

/-- ROM_A -/
def romA : List Byte := List.replicate 0x0100 0x00 ++ headerA

/-- ROM_C: ROM_A with `version_number` 0x01 -/
def romC : List Byte := romA.set 0x014C 0x01

/-- ROM_T: ROM_A one byte short -/
def romT : List Byte := romA.take 0x014F

/-- The reset state with a buffer presented. -/
def presented (bytes : List Byte) : State := State.reset.presentBuffer bytes

/-- The next state of an outcome, where there is one. -/
def nextOf (o : Host.Outcome State Fault Refusal) : Option State :=
  match o with
  | .next t => some t
  | .fault _ => none
  | .refused _ => none

/-- The state after DECODE of a buffer, from reset. -/
def decoded (bytes : List Byte) : State := (nextOf (exec .decode (presented bytes))).getD State.reset

/-- What a test looks at after a command: `STATUS` and the two computed checksums. -/
def looked (o : Host.Outcome State Fault Refusal) : Option (Half × Option Byte × Option Half) :=
  (nextOf o).map fun t => (t.status, t.hckCalc, t.gckCalc)

/-- A field of the record after DECODE of a buffer. -/
def fieldOf {α : Type} (f : Header → α) (bytes : List Byte) : Option α := (decoded bytes).hdr.map f

/-! ### Well-formedness -/

/-- A byte with a bit above the 3-bit word carries no command; the next lower byte does. -/
theorem test_wf_refuses_bits_outside_word : commandByteWf 0x08 = false ∧ commandByteWf 0x07 = true := by decide

/-- The decoder refuses what the check refuses, each by its name. -/
theorem test_decode_rejections :
    decodeBytes [0x0F] = .error (.bitsOutsideWord 0x0F) ∧ decodeBytes [] = .error .noWord ∧
      decodeBytes [0x01, 0x00] = .error (.tooLong 1) := ⟨rfl, rfl, rfl⟩

/-! ### Decoding, words written out from R50 -/

theorem test_decode_words_control :
    decodeBytes [0b00000000] = .ok .nop ∧ decodeBytes [0b00000101] = .ok .reserved5 ∧
      decodeBytes [0b00000110] = .ok .reserved6 ∧ decodeBytes [0b00000111] = .ok .reserved7 := ⟨rfl, rfl, rfl, rfl⟩

theorem test_decode_words_operations :
    decodeBytes [0b00000001] = .ok .decode ∧ decodeBytes [0b00000010] = .ok .vlogo ∧
      decodeBytes [0b00000011] = .ok .vhck ∧ decodeBytes [0b00000100] = .ok .vgck := ⟨rfl, rfl, rfl, rfl⟩

theorem test_table_words : decodeTableWord 8 0 = some .nop ∧ decodeTableWord 8 4 = some .vgck ∧
    decodeTableWord 8 7 = some .reserved7 ∧ decodeTableWord 8 8 = none := by decide

/-! ### NOP and the reserved codes (V50, V51) -/

theorem test_nop_keeps_status : looked (exec .nop { State.reset with logoRes := .pass, last := .noHeader }) =
    some (0x1402, none, none) := by decide

theorem test_reserved5 : looked (exec .reserved5 State.reset) = some (0x1A00, none, none) := by decide
theorem test_reserved6 : looked (exec .reserved6 State.reset) = some (0x1A00, none, none) := by decide
theorem test_reserved7 : looked (exec .reserved7 State.reset) = some (0x1A00, none, none) := by decide

/-! ### DECODE (V1 to V13) -/

/-- V1, V2, V3: any content of 0x0150 bytes decodes, one byte less does not -/
theorem test_decode_status : looked (exec .decode (presented romF)) = some (0x0001, none, none) ∧
    looked (exec .decode (presented romZ)) = some (0x0001, none, none) ∧
    looked (exec .decode (presented romT)) = some (0x0480, none, none) := by decide +kernel

/-- V9: the record of ROM_A; its stored global checksum is 0x1941 and not 0x4119 -/
theorem test_decode_record :
    fieldOf (·.entryPoint.toList) romA = some [0x00, 0xC3, 0x50, 0x01] ∧
    fieldOf (·.nintendoLogo.toList) romA = some logoCand.toList ∧
    fieldOf (·.title.toList) romA = some [0x54, 0x45, 0x53, 0x54, 0, 0, 0, 0, 0, 0, 0, 0, 0, 0, 0, 0x80] ∧
    fieldOf (·.newLicenseeCode.toList) romA = some [0x30, 0x31] ∧
    fieldOf (fun h => [h.cgbFlag, h.oldLicenseeCode, h.sgbFlag, h.destinationCode, h.headerChecksum]) romA =
      some [0x80, 0x33, 0x03, 0x01, 0x8F] ∧
    fieldOf (·.globalChecksum) romA = some 0x1941 := by decide +kernel

/-- V9, V5: the views of ROM_A, and 0x81 is no CGB class -/
theorem test_views : fieldOf (fun h => (cgbClass h.cgbFlag, sgbClass h.sgbFlag, h.licSel)) romA =
    some (.enhanced, .enhanced, .new) ∧ cgbClass 0x81 = .none ∧ sgbClass 0x30 = .unsupported := by decide +kernel

/-- V10 to V13: the licensee names the spec gives -/
theorem test_licensee (h : Header) :
    ({ h with oldLicenseeCode := 0x01, newLicenseeCode := #v[0x30, 0x31] } : Header).licName = .entry .nintendo ∧
    ({ h with oldLicenseeCode := 0x33, newLicenseeCode := #v[0x30, 0x31] } : Header).licName =
      .entry .nintendoResearchDevelopment1 ∧
    ({ h with oldLicenseeCode := 0xFE } : Header).licName = .unknown ∧
    ({ h with oldLicenseeCode := 0x33, newLicenseeCode := #v[0xFF, 0x31] } : Header).licName = .unknown :=
  ⟨rfl, rfl, rfl, rfl⟩

/-! ### VLOGO (V23, S3) -/

/-- V23 -/
theorem test_vlogo_without_record : looked (exec .vlogo State.reset) = some (0x1500, none, none) := by decide

/-- The record of ROM_Z with a logo of the test's choice. -/
def withLogo (logo : Vector Byte 48) : State :=
  { State.reset with hdr := some { headerOf (Memory.ofBytes romZ) with nintendoLogo := logo } }

/-- A logo that differs from the reference in bit 0 of its first byte. -/
def flippedLogo : Vector Byte 48 := Config.logoRef.set 0 (Config.logoRef[0] ^^^ 1)

theorem flippedLogo_differs : flippedLogo[0] ≠ Config.logoRef[0] := by
  simp [flippedLogo]

/-- V20: the reference itself passes; S3: one flipped bit fails. -/
theorem test_vlogo_single_bit :
    (nextOf (exec .vlogo (withLogo Config.logoRef))).map (·.logoRes) = some .pass ∧
    (nextOf (exec .vlogo (withLogo flippedLogo))).map (·.logoRes) = some .fail := by
  have hne : flippedLogo ≠ Config.logoRef := fun h => flippedLogo_differs (by rw [h])
  constructor
  · simp [exec, execVlogo, State.onHdv, runVlogo, Hdv.withRecord, withLogo, Hdv.concludeLogo, nextOf]
  · simp [exec, execVlogo, State.onHdv, runVlogo, Hdv.withRecord, withLogo, Hdv.concludeLogo, nextOf, hne]

/-- V22, R121 -/
theorem test_hex_render : hexRender [0x00, 0x0B, 0xFF] = ['0', '0', ' ', '0', 'B', ' ', 'F', 'F'] ∧
    (hexRender logoCand.toList).length = 143 := by decide +kernel

/-! ### VHCK and VGCK (V30 to V41) -/

/-- V30, V33: computed 0xE7 against stored 0x00 fails; ROM_A passes with 0x8F -/
theorem test_vhck : looked (exec .vhck (decoded romZ)) = some (0x0C11, some 0xE7, none) ∧
    looked (exec .vhck (decoded romA)) = some (0x0009, some 0x8F, none) := by decide +kernel

/-- P4: the buffer is changed to ROM_C after DECODE of ROM_A; V41: it is one byte short -/
theorem test_vhck_other_buffer :
    looked (exec .vhck ((decoded romA).presentBuffer romC)) = some (0x0C11, some 0x8E, none) ∧
    looked (exec .vhck ((decoded romA).presentBuffer romT)) = some (0x0481, none, none) := by decide +kernel

/-- V35, V37: the all-zero image passes with 0; ROM_A passes with 0x1941 -/
theorem test_vgck : looked (exec .vgck (decoded romZ)) = some (0x0021, none, some 0x0000) ∧
    looked (exec .vgck (decoded romA)) = some (0x0021, none, some 0x1941) := by decide +kernel

/-- V39: the bytes at 0x014E and 0x014F of the presented buffer are not summed -/
theorem test_vgck_skips_stored :
    looked (exec .vgck ((decoded romA).presentBuffer ((romA.set 0x014E 0xFF).set 0x014F 0xFF))) =
      some (0x0021, none, some 0x1941) := by decide +kernel

/-- R141: single wraparound steps -/
theorem test_wraparound : hckStep 0 0 = 0xFF ∧ hckStep 0 0xFF = 0 ∧ hckStep 5 10 = 0xFA ∧
    gckStep 0xFFFF 1 = 0 ∧ gckStep 0xFF80 0xFF = 0x007F := by decide

/-! ### The read port, the listing and the step -/

/-- R53: select 14 reads `global_checksum`, 20 `STATUS`; U1: `HDR` without a record and U2: select 23 are refused. -/
theorem test_reads : regOfSelect 14 = some .globalChecksum ∧ regOfSelect 20 = some .status ∧
    State.reset.readRegister 0 = .refused (.holdsNoValue .entryPoint) ∧
    State.reset.readRegister 23 = .refused (.reservedSelect 23) := ⟨rfl, rfl, rfl, rfl⟩

/-- R66: an item with a comment, a raw word, a comment line, and a text that is no item (lower case). -/
theorem test_parse_lines :
    parseLine (fun _ => none) ['V', 'H', 'C', 'K', ' ', ';', 'x'] = some [.command .vhck] ∧
    parseLine (fun _ => none) ['.', 'C', 'M', 'D', ' ', '0', 'b', '1', '1', '0'] = some [.dotCmd 0b110] ∧
    parseLine (fun _ => none) [';', 'x'] = some [] ∧ parseLine (fun _ => none) ['n', 'o', 'p'] = none := by decide

/-- R190: reset clears the sticky flag that a short DECODE set; the placed word runs first. -/
theorem test_first_steps : step (State.reset.withFetchWord 8 1) =
    .next { State.reset with errTrunc := true, last := .truncatedInput } ∧
    step { State.reset with errTrunc := true, script := [.reset] } = .next State.reset := ⟨rfl, rfl⟩

/-! ### Witnesses: for every statement with hypotheses, a concrete state and operands that meet them -/

/-- The reset state with host actions waiting. -/
def waiting (script : List HostAction) : State := { State.reset with script := script }

theorem witness_PlacedTableWordRuns : (0 < 8 ∧ 7 < 8) ∧ (8 ≤ 8 ∧ 8 < 256) ∧ (8 ≤ 255 ∧ 255 < 256) := by decide

theorem witness_StepRunsPresentedCommand : (waiting [.command 0b001, .reset]).script = .command 0b001 :: [.reset] ∧
    ∃ d, hdvStep 0b001 (waiting [.command 0b001, .reset]).rom (waiting [.command 0b001, .reset]).toHdv = .next d :=
  ⟨rfl, _, rfl⟩

theorem witness_IdleStepChangesNothing : State.reset.script = [] := rfl

theorem witness_ResetStateValues : Reg.hckCalc ≠ .status ∧ Reg.entryPoint ≠ .status := by decide

theorem witness_ResetEventRestoresResetState : (waiting [.reset]).script = .reset :: [] := rfl

theorem witness_PresentedBufferReplacesBufferOnly : (waiting [.present romZ]).script = .present romZ :: [] := rfl

/-- A refused read, after which the host reads again and gets a value. -/
theorem witness_EveryStepCompletes : ∃ t u, step (waiting [.read 23, .read 20]) = .next t ∧
    t.readData = .refused (.reservedSelect 23) ∧ step t = .next u ∧ u.readData = .value (.half 0x0000) :=
  ⟨_, _, rfl, rfl, rfl, rfl⟩

/-- One witness for each of the four clauses, where they meet: the last byte and the first offset beyond. -/
theorem witness_MemReadAnswersBufferBytes : 0x014F < romZ.length ∧ romZ.length ≤ 0x0150 ∧ 0x014E + 2 ≤ romZ.length ∧
    romZ.length < 0x014F + 2 := by decide +kernel

theorem witness_CommandsLeaveHostSideUnchanged : ∃ t, exec .vgck State.reset = .next t := ⟨_, rfl⟩

theorem witness_BufferFreeCommandsIgnoreTheBuffer :
    Instr.vlogo ∈ [Instr.nop, .vlogo, .reserved5, .reserved6, .reserved7] ∧ ∃ t, exec .vlogo State.reset = .next t :=
  ⟨by decide, _, rfl⟩

theorem witness_DecodeOfShortBufferInvalidates : (presented romT).rom.len < 0x0150 := by decide +kernel

theorem witness_DecodeCommitsRecord : 0x0150 ≤ (presented romZ).rom.len := by decide +kernel

theorem witness_DecodeExtractsByteArrays : 0x0150 ≤ (presented romA).rom.len ∧ 47 < 48 := by decide +kernel

theorem witness_DecodeExtractsSingleBytes : 0x0150 ≤ (presented romC).rom.len := by decide +kernel

theorem witness_DecodeAssemblesGlobalChecksum : 0x0150 ≤ (presented romF).rom.len := by decide +kernel

theorem witness_DecodedRecordOverlaps :
    ∃ t h, exec .decode (presented romA) = .next t ∧ t.hdr = some h := by
  refine ⟨(presented romA).setHdv (((presented romA).setRecord (some (headerOf (presented romA).rom))).endWith .ok), _, ?_, rfl⟩
  have hl : ¬ (presented romA).rom.len < Config.minLen := by decide +kernel
  rw [exec_eq_onHdv, State.onHdv_of_next]
  rw [runCommand, runDecode, if_neg hl, loadHeader_inside _ (by omega), onRead_ok]

/-- Two different buffers, both long, that agree on the header bytes: ROM_Z and ROM_Z with another first byte. -/
theorem witness_DecodeDependsOnHeaderBytesOnly :
    (0x0150 ≤ (presented romZ).rom.len ∧ 0x0150 ≤ (presented (romZ.set 0 0x77)).rom.len) ∧
    (presented romZ).rom ≠ (presented (romZ.set 0 0x77)).rom ∧
    (∀ a, 0x0100 ≤ a → a < 0x0150 → (presented romZ).rom.read1 a = (presented (romZ.set 0 0x77)).rom.read1 a) ∧
    (presented romZ).errTrunc = (presented (romZ.set 0 0x77)).errTrunc := by
  refine ⟨by decide +kernel, by decide +kernel, fun a h₁ h₂ => ?_, rfl⟩
  have hz : (presented romZ).rom.len = 0x0150 := by decide +kernel
  have hs : (presented (romZ.set 0 0x77)).rom.len = 0x0150 := by decide +kernel
  rw [Memory.read1_inside _ _ (by omega), Memory.read1_inside _ _ (by omega)]
  simp only [presented, State.presentBuffer_rom, Memory.ofBytes_byteAt, List.getD_eq_getElem?_getD,
    List.getElem?_set_ne (show 0 ≠ a by omega)]

/-- The other clause: both buffers short. -/
theorem witness_DecodeDependsOnHeaderBytesOnly_short :
    (presented romT).rom.len < 0x0150 ∧ (presented []).rom.len < 0x0150 := by decide +kernel

theorem witness_OnlyDecodeWritesRecord : Instr.vhck ≠ .decode ∧ ∃ t, exec .vhck State.reset = .next t :=
  ⟨by decide, _, rfl⟩

theorem witness_CgbClassOfWholeByte : (0x81 : Byte) ≠ 0x80 ∧ (0x81 : Byte) ≠ 0xC0 := by decide

theorem witness_SgbClassOfWholeByte : (0x04 : Byte) ≠ 0x03 := by decide

/-- Whatever `DEST_MAP` is, each byte meets one of the two hypotheses. -/
theorem witness_DestClassFollowsTheMap :
    (∃ label, Config.destMap 0x00 = some label) ∨ Config.destMap 0x00 = none := by
  cases h : Config.destMap 0x00 with
  | none => exact .inr rfl
  | some label => exact .inl ⟨label, rfl⟩

/-- A header for the licensee witnesses: that of ROM_Z with the three bytes given. -/
def licensed (old new0 new1 : Byte) : Header :=
  { headerOf (Memory.ofBytes romZ) with oldLicenseeCode := old, newLicenseeCode := #v[new0, new1] }

/-- One witness for each clause: a hit, a miss and the quoted keys of each table. -/
theorem witness_LicenseeResolution :
    ((licensed 0x33 0x30 0x31).oldLicenseeCode = 0x33 ∧
      Config.newLicensee (licensed 0x33 0x30 0x31).newLicenseeCode[0] (licensed 0x33 0x30 0x31).newLicenseeCode[1] =
        some .nintendoResearchDevelopment1) ∧
    (Config.newLicensee (licensed 0x33 0x80 0x31).newLicenseeCode[0] (licensed 0x33 0x80 0x31).newLicenseeCode[1] = none ∧
      (0x80 : Byte) ≤ (licensed 0x33 0x80 0x31).newLicenseeCode[0]) ∧
    ((licensed 0x01 0x30 0x31).oldLicenseeCode ≠ 0x33 ∧
      Config.oldLicensee (licensed 0x01 0x30 0x31).oldLicenseeCode = some .nintendo) ∧
    ((licensed 0xFE 0 0).oldLicenseeCode = 0xFE ∧ Config.oldLicensee (licensed 0xFE 0 0).oldLicenseeCode = none) :=
  ⟨⟨rfl, rfl⟩, ⟨rfl, by decide⟩, ⟨by decide, rfl⟩, ⟨rfl, rfl⟩⟩

/-- Two headers with the same old code and different new codes, and two with the sentinel and the same new code. -/
theorem witness_LicenseeTablesAreExclusive :
    ((licensed 0x01 0x30 0x31).oldLicenseeCode = (licensed 0x01 0x41 0x42).oldLicenseeCode ∧
      (licensed 0x01 0x30 0x31).oldLicenseeCode ≠ 0x33) ∧
    ((licensed 0x33 0x30 0x31).oldLicenseeCode = 0x33 ∧
      (licensed 0x33 0x30 0x31).newLicenseeCode = (licensed 0x33 0x30 0x31).newLicenseeCode) :=
  ⟨⟨rfl, by decide⟩, rfl, rfl⟩

theorem witness_LicenseeTableFacts : Config.newLicensee 0x30 0x31 = some .nintendoResearchDevelopment1 := rfl

/-- One witness for each clause: no record, the reference logo, a logo with one bit flipped. -/
theorem witness_VlogoResult : State.reset.hdr = none ∧
    (∃ h, (withLogo Config.logoRef).hdr = some h ∧ ∀ i (hi : i < 48), h.nintendoLogo[i] = Config.logoRef[i]) ∧
    (∃ h, (withLogo flippedLogo).hdr = some h ∧ ∃ i, ∃ hi : i < 48, h.nintendoLogo[i] ≠ Config.logoRef[i]) :=
  ⟨rfl, ⟨_, rfl, fun _ _ => rfl⟩, _, rfl, 0, by decide, flippedLogo_differs⟩

theorem witness_DecodeThenVlogoPassesIffLogoMatches : 0x0150 ≤ (presented romA).rom.len := by decide +kernel

theorem witness_HexRenderingForm : ([0x0B, 0xFF] : List Byte) ≠ [] ∧ 0 + 1 < ([0x0B, 0xFF] : List Byte).length := by decide

theorem witness_HexRenderingIsInjective : ([0x0B] : List Byte).length = ([0x0B] : List Byte).length ∧
    hexRender [0x0B] = hexRender [0x0B] := ⟨rfl, rfl⟩

theorem witness_HexRoundTrip : ([0xCE] : List Byte) ≠ [] := by decide

/-- The record of ROM_A, with the buffer of another image presented. -/
def recordA (bytes : List Byte) : State := { presented bytes with hdr := some (headerOf (Memory.ofBytes romA)) }

/-- One witness for each clause: no record; a short buffer; a pass (ROM_A) and a failure (ROM_C). -/
theorem witness_VhckResult : State.reset.hdr = none ∧
    ((recordA romT).hdr.isSome = true ∧ (recordA romT).rom.len < 0x0150) ∧
    (0x0150 ≤ (recordA romA).rom.len ∧ (hck (recordA romA).rom).toOption = (recordA romA).hdr.map (·.headerChecksum)) ∧
    (0x0150 ≤ (recordA romC).rom.len ∧ (hck (recordA romC).rom).toOption ≠ (recordA romC).hdr.map (·.headerChecksum)) := by
  decide +kernel

theorem witness_VgckResult : State.reset.hdr = none ∧
    ((recordA romT).hdr.isSome = true ∧ (recordA romT).rom.len < 0x0150) ∧
    (0x0150 ≤ (recordA romA).rom.len ∧ (gck (recordA romA).rom).toOption = (recordA romA).hdr.map (·.globalChecksum)) ∧
    (0x0150 ≤ (recordA romC).rom.len ∧ (gck (recordA romC).rom).toOption ≠ (recordA romC).hdr.map (·.globalChecksum)) := by
  decide +kernel

theorem witness_HeaderChecksumRunsOverTheSpan : 0x0150 ≤ romA.length := by decide +kernel

/-- ROM_Z and ROM_F meet the two clauses about constant spans. -/
theorem witness_HeaderChecksumClosedForm : 0x0150 ≤ romZ.length ∧
    (∀ b ∈ (romZ.drop 0x0134).take 25, b = 0x00) ∧ (∀ b ∈ (romF.drop 0x0134).take 25, b = 0xFF) := by decide +kernel

theorem witness_HeaderChecksumFromTheRecord :
    ∃ t h, exec .decode (presented romA) = .next t ∧ t.hdr = some h := witness_DecodedRecordOverlaps

theorem witness_GlobalChecksumSumsAllOtherBytes : 0x0150 ≤ romF.length := by decide +kernel

theorem witness_GlobalChecksumClosedForm : 0x0150 ≤ romF.length ∧
    (∀ b ∈ romZ, b = 0x00) ∧ (∀ b ∈ romF, b = 0xFF) :=
  ⟨by decide +kernel, fun _ => List.eq_of_mem_replicate, fun _ => List.eq_of_mem_replicate⟩

theorem witness_ValidatorsRunInAnyOrder :
    Instr.vgck ∈ [Instr.vlogo, .vhck, .vgck] ∧ Instr.vlogo ∈ [Instr.vlogo, .vhck, .vgck] := by decide

theorem witness_CleanValidationOfOneImage : (presented romA).pReset ∧ 0x0150 ≤ (presented romA).rom.len :=
  ⟨rfl, by decide +kernel⟩

theorem witness_OutcomesOfEachCommand : ∃ t, exec .vlogo State.reset = .next t := ⟨_, rfl⟩

theorem witness_ResultFieldsHaveOneWriter :
    (∃ t, exec .vgck State.reset = .next t) ∧ Instr.vgck ≠ .vlogo ∧ Instr.vgck ≠ .vhck ∧ Instr.vgck ≠ .decode :=
  ⟨⟨_, rfl⟩, by decide, by decide, by decide⟩

theorem witness_StickyFlagsFollowOutcomes :
    (∃ t, exec .reserved6 State.reset = .next t) ∧ Instr.reserved6 ≠ .nop := ⟨⟨_, rfl⟩, by decide⟩

/-- The reset event clears each of the three sticky flags. -/
theorem witness_OnlyResetClearsStickyFlags :
    ∃ t, step { waiting [.reset] with errTrunc := true, errNohdr := true, errCmd := true } = .next t ∧
      t.errTrunc = false ∧ t.errNohdr = false ∧ t.errCmd = false := ⟨_, rfl, rfl, rfl, rfl⟩

theorem witness_ValidatorsAfterFailedDecode :
    Instr.vhck ∈ [Instr.vlogo, .vhck, .vgck] ∧ (presented romT).rom.len < 0x0150 := by decide +kernel

theorem witness_RecordRegistersReadBack : (recordA romA).hdr = some (headerOf (Memory.ofBytes romA)) := rfl

theorem witness_StatusAndChecksumRegistersReadBack :
    ({ State.reset with hckCalc := some 0x8F, gckCalc := some 0x1941 } : State).hckCalc = some 0x8F ∧
    ({ State.reset with hckCalc := some 0x8F, gckCalc := some 0x1941 } : State).gckCalc = some 0x1941 := ⟨rfl, rfl⟩

/-- One witness for each clause, at the ends of the ranges: selects 19, 21, 22 and 23. -/
theorem witness_ReadsWithoutValueAreRefused : (State.reset.hdr = none ∧ (19 : BitVec 5).toNat < 20) ∧
    State.reset.hckCalc = none ∧ State.reset.gckCalc = none ∧ 23 ≤ (23 : BitVec 5).toNat := by decide

/-- Two instances, the first stepping by a reserved code, the second by a reset. -/
theorem witness_InstancesAreIndependent :
    ∃ l₁ l₂, 0 ≠ 1 ∧ stepOne 0 [waiting [.command 0b111], waiting [.reset]] = .next l₁ ∧ stepOne 1 l₁ = .next l₂ :=
  ⟨_, _, by decide, rfl, rfl⟩

/-- A state that is not the reset state, with an image presented, an error latched and a command waiting. -/
def busy : State := { presented romA with errCmd := true, last := .reservedCommand, script := [.command 0b010] }

theorem witness_StepKeepsInvariants : busy.Inv ∧ ∃ t, step busy = .next t :=
  ⟨⟨Memory.ofBytes_wf romA, by simp [busy, presented], by simp [busy, presented], by simp [busy, presented],
    by simp [busy, presented]⟩, _, rfl⟩

theorem witness_StepKeepsResultsDescribingRecord : busy.ResultsDescribeRecord ∧ ∃ t, step busy = .next t := by
  refine ⟨?_, _, rfl⟩
  constructor <;> simp [busy, presented]

/-! ### P_SAME_ROM (R201, R196) -/

/-- A run like program P1: reset, one image for DECODE, one (in P1 the same) for the validators. -/
def runOf (bytes bytes' : List Byte) : State :=
  waiting [.reset, .present bytes, .command 0b001, .command 0b010, .present bytes', .command 0b011, .command 0b100]

theorem test_same_rom_holds : (runOf romA romA).pReset ∧ (runOf romA romA).pSameRom :=
  ⟨rfl, .inl rfl, by simp [runOf, waiting, sameRomFrom, decodeCommand]⟩

/-- Another image before the checksum commands breaks the premise, and so does a record from before the run. -/
theorem test_same_rom_fails : ¬ (runOf romA romC).pSameRom ∧ ¬ (decoded romA).pSameRom := by
  constructor
  · intro h
    have : Memory.ofBytes romC = Memory.ofBytes romA := h.2.2.1 _ rfl
    exact absurd this (by decide +kernel)
  · rintro ⟨h | ⟨rest, h⟩, -⟩
    · exact absurd h (by decide +kernel)
    · exact absurd h (by simp [show (decoded romA).script = [] by decide +kernel])

end Sys2Proof.Tests
end

section
/-! The licensee tables (R6): one equation for each key whose result the spec fixes. The rest of both tables is open. -/

namespace Sys2Proof.Config

@[simp] theorem oldLicensee_one : oldLicensee 0x01 = some .nintendo := rfl

@[simp] theorem oldLicensee_fe : oldLicensee 0xFE = none := rfl

@[simp] theorem newLicensee_ascii_zero_one : newLicensee 0x30 0x31 = some .nintendoResearchDevelopment1 := rfl

/-- A key with a byte of 0x80 or more misses (D16), whatever the open part of the table holds. -/
theorem newLicensee_eq_none_of_high {a b : Byte} (h : 0x80 ≤ a ∨ 0x80 ≤ b) : newLicensee a b = none := if_pos h

/-- The key constraint of R6: the contrapositive of `newLicensee_eq_none_of_high`. -/
theorem newLicensee_key_lt {a b : Byte} {n : PublisherName} (h : newLicensee a b = some n) : a < 0x80 ∧ b < 0x80 := by
  by_contra hlow
  have hhigh : 0x80 ≤ a ∨ 0x80 ≤ b := by simpa only [not_and_or, BitVec.not_lt] using hlow
  simp [newLicensee_eq_none_of_high hhigh] at h

end Sys2Proof.Config

namespace Sys2Proof.Proofs
open Sys2Proof.Config

/-- Settles O29: the two quoted entries and the quoted miss by the tables' equations, the key constraint by its lemma. -/
theorem licenseeTableFacts : Obligations.LicenseeTableFacts :=
  ⟨oldLicensee_one, oldLicensee_fe, newLicensee_ascii_zero_one, fun _ _ _ => newLicensee_key_lt⟩

end Sys2Proof.Proofs
end

section
/-! The commands in two parts (R160, R170): what a command writes to HDV, and the one `Hdv.endWith` that ends it. The statements on
who writes the record, the results and the sticky flags speak of one of the two parts only. -/

namespace Sys2Proof.Machine

/-- VLOGO never ends with the result `NOT_RUN`. -/
theorem Hdv.concludeLogo_eq_endWith (h : Header) (d : Hdv) :
    ∃ r o, r ≠ .notRun ∧ d.concludeLogo h = (d.setLogo r).endWith o := by
  obtain ⟨-, e⟩ | ⟨-, e⟩ := Hdv.concludeLogo_cases h d <;> exact ⟨_, _, by decide, e⟩

/-- VHCK never ends with the result `NOT_RUN`. -/
theorem Hdv.concludeHck_eq_endWith (h : Header) (x : Byte) (d : Hdv) :
    ∃ r o, r ≠ .notRun ∧ d.concludeHck h x = (d.setHck x r).endWith o := by
  obtain ⟨-, e⟩ | ⟨-, e⟩ := Hdv.concludeHck_cases h x d <;> exact ⟨_, _, by decide, e⟩

/-- VGCK never ends with the result `NOT_RUN`. -/
theorem Hdv.concludeGck_eq_endWith (h : Header) (x : Half) (d : Hdv) :
    ∃ r o, r ≠ .notRun ∧ d.concludeGck h x = (d.setGck x r).endWith o := by
  obtain ⟨-, e⟩ | ⟨-, e⟩ := Hdv.concludeGck_cases h x d <;> exact ⟨_, _, by decide, e⟩

/-- `d.Writes rom i e`: before it ends, the command `i` takes HDV from `d` to `e`. `runCommand_writes` ties it to the commands. -/
inductive Hdv.Writes (rom : Memory) (d : Hdv) : Instr → Hdv → Prop
  /-- a reserved code, or a validator that lacks a record or a long enough buffer (R133, R138, R152) -/
  | nothing {i : Instr} (hi : i ≠ .decode) : Writes rom d i d
  /-- DECODE, with no record or with that of the buffer (R81, R82) -/
  | record (r : Option Header) (hr : ∀ h, r = some h → h = headerOf rom) : Writes rom d .decode (d.setRecord r)
  /-- VLOGO (R120) -/
  | logo (r : CheckResult) (hd : d.hdr ≠ none) (hr : r ≠ .notRun) : Writes rom d .vlogo (d.setLogo r)
  /-- VHCK (R134) -/
  | hck (x : Byte) (r : CheckResult) (hd : d.hdr ≠ none) (hr : r ≠ .notRun) : Writes rom d .vhck (d.setHck x r)
  /-- VGCK (R139) -/
  | gck (x : Half) (r : CheckResult) (hd : d.hdr ≠ none) (hr : r ≠ .notRun) : Writes rom d .vgck (d.setGck x r)

/-- Every command but NOP makes its writes and then ends with one outcome. -/
theorem runCommand_writes {i : Instr} {rom : Memory} {d d' : Hdv} (h : runCommand i rom d = .next d') :
    (i = .nop ∧ d' = d) ∨ (i ≠ .nop ∧ ∃ e o, d.Writes rom i e ∧ d' = e.endWith o) := by
  obtain ⟨hi, hd'⟩ | ⟨hi, rfl⟩ | ⟨rfl, -, rfl⟩ | ⟨rfl, -, rfl⟩ | ⟨hi, -, rfl⟩ | ⟨hh, rfl, he, rfl⟩ | ⟨hh, hi, -, -, rfl⟩ |
    ⟨hh, x, rfl, he, -, -, rfl⟩ | ⟨hh, x, rfl, he, -, -, rfl⟩ := runCommand_cases i rom d d' h
  case inl => exact .inl ⟨hi, hd'⟩
  all_goals right
  · rcases hi with rfl | rfl | rfl <;> exact ⟨by decide, d, _, .nothing (by decide), rfl⟩
  · exact ⟨by decide, _, _, .record none (by simp), rfl⟩
  · exact ⟨by decide, _, _, .record (some (headerOf rom)) (by simp), rfl⟩
  · rcases hi with rfl | rfl | rfl <;> exact ⟨by decide, d, _, .nothing (by decide), rfl⟩
  · obtain ⟨r, o, hr, e⟩ := Hdv.concludeLogo_eq_endWith hh d
    exact ⟨by decide, _, o, .logo r (by simp [he]) hr, e⟩
  · rcases hi with rfl | rfl <;> exact ⟨by decide, d, _, .nothing (by decide), rfl⟩
  · obtain ⟨r, o, hr, e⟩ := Hdv.concludeHck_eq_endWith hh x d
    exact ⟨by decide, _, o, .hck x r (by simp [he]) hr, e⟩
  · obtain ⟨r, o, hr, e⟩ := Hdv.concludeGck_eq_endWith hh x d
    exact ⟨by decide, _, o, .gck x r (by simp [he]) hr, e⟩

/-- The writes of a command touch no sticky flag; only its end does (R20). -/
theorem Hdv.Writes.flags_eq {rom : Memory} {d e : Hdv} {i : Instr} (hw : d.Writes rom i e) :
    e.errTrunc = d.errTrunc ∧ e.errNohdr = d.errNohdr ∧ e.errCmd = d.errCmd := by
  cases hw <;> exact ⟨rfl, rfl, rfl⟩

theorem Hdv.Writes.hdr_eq {rom : Memory} {d e : Hdv} {i : Instr} (hw : d.Writes rom i e) (hi : i ≠ .decode) :
    e.hdr = d.hdr := by
  cases hw with
  | record => exact absurd rfl hi
  | nothing | logo | hck | gck => rfl

theorem Hdv.Writes.eq_headerOf {rom : Memory} {d e : Hdv} {h : Header} (hw : d.Writes rom .decode e)
    (hh : e.hdr = some h) : h = headerOf rom := by
  cases hw with
  | nothing hi => exact absurd rfl hi
  | record _ hr => exact hr h hh

/-- The overlapping loads of a header read the same bytes of the buffer (R14). -/
theorem headerOf_overlaps (m : Memory) : (headerOf m).overlaps := by
  refine ⟨fun i hi => ?_, ?_⟩
  · simp only [headerOf, Memory.slice_getElem]
    congr 1
    omega
  · simp only [headerOf, Memory.slice_getElem]

/-- No sticky flag that is set in `d` is clear in `d'`. -/
def Hdv.KeepsFlags (d d' : Hdv) : Prop :=
  (d.errTrunc = true → d'.errTrunc = true) ∧ (d.errNohdr = true → d'.errNohdr = true) ∧
    (d.errCmd = true → d'.errCmd = true)

theorem Hdv.KeepsFlags.refl (d : Hdv) : d.KeepsFlags d := ⟨id, id, id⟩

theorem runCommand_keepsFlags {i : Instr} {rom : Memory} {d d' : Hdv} (h : runCommand i rom d = .next d') :
    d.KeepsFlags d' := by
  obtain ⟨-, rfl⟩ | ⟨-, e, o, hw, rfl⟩ := runCommand_writes h
  · exact .refl d'
  · obtain ⟨htrunc, hnohdr, hcmd⟩ := hw.flags_eq
    simp +contextual [Hdv.KeepsFlags, htrunc, hnohdr, hcmd]

/-- Every step but the reset event keeps the sticky flags (R20, R190). -/
theorem step_keepsFlags {s t : State} (h : step s = .next t) :
    (∃ rest, s.script = .reset :: rest) ∨ s.KeepsFlags t.toHdv := by
  obtain ⟨-, rfl⟩ | ⟨rest, hs, -⟩ | ⟨c, rest, -, he⟩ | ⟨bytes, rest, -, rfl⟩ | ⟨sel, rest, -, rfl⟩ := step_cases s t h
  · exact .inr (.refl _)
  · exact .inl ⟨rest, hs⟩
  · obtain ⟨d, hr, rfl⟩ := exec_next he
    exact .inr (runCommand_keepsFlags hr)
  · exact .inr (.refl _)
  · exact .inr (.refl _)

end Sys2Proof.Machine

namespace Sys2Proof.Proofs
open Sys2Proof.Machine

/-- Settles O21: the record DECODE leaves is the header of the buffer, whose overlapping loads agree. -/
theorem decodedRecordOverlaps : Obligations.DecodedRecordOverlaps := by
  intro s t h he hh
  obtain ⟨d, hr, rfl⟩ := exec_next he
  obtain ⟨hi, -⟩ | ⟨-, e, o, hw, rfl⟩ := runCommand_writes hr
  · cases hi
  · rw [hw.eq_headerOf hh]
    exact headerOf_overlaps s.rom

/-- Settles O23: the record is among the writes of DECODE only, and no end of a command touches it. -/
theorem onlyDecodeWritesRecord : Obligations.OnlyDecodeWritesRecord := by
  intro i s t hi h
  obtain ⟨d, hr, rfl⟩ := exec_next h
  obtain ⟨-, rfl⟩ | ⟨-, e, o, hw, rfl⟩ := runCommand_writes hr
  · rfl
  · exact hw.hdr_eq hi

/-- Settles O48, by the writes of each command. -/
theorem resultFieldsHaveOneWriter : Obligations.ResultFieldsHaveOneWriter := by
  intro i s t h
  obtain ⟨d, hr, rfl⟩ := exec_next h
  obtain ⟨rfl, rfl⟩ | ⟨-, e, o, hw, rfl⟩ := runCommand_writes hr
  · simp
  · cases hw with
    | nothing hi => simp [hi]
    | record | logo | hck | gck => simp

/-- Settles O49: the writes of a command leave the flags alone, and its end sets the one that matches its outcome. -/
theorem stickyFlagsFollowOutcomes : Obligations.StickyFlagsFollowOutcomes := by
  intro i s t h hi
  obtain ⟨d, hr, rfl⟩ := exec_next h
  obtain ⟨hn, -⟩ | ⟨-, e, o, hw, rfl⟩ := runCommand_writes hr
  · exact absurd hn hi
  · obtain ⟨htrunc, hnohdr, hcmd⟩ := hw.flags_eq
    simp [htrunc, hnohdr, hcmd]

/-- Settles O50, by `step_keepsFlags`. -/
theorem onlyResetClearsStickyFlags : Obligations.OnlyResetClearsStickyFlags := by
  intro s t h hcleared
  obtain hreset | ⟨htrunc, hnohdr, hcmd⟩ := step_keepsFlags h
  · exact hreset
  · obtain ⟨hs, ht⟩ | ⟨hs, ht⟩ | ⟨hs, ht⟩ := hcleared
    · simp [htrunc hs] at ht
    · simp [hnohdr hs] at ht
    · simp [hcmd hs] at ht

end Sys2Proof.Proofs
end

section
/-! The invariants of R28 and R14 (`State.Inv`): they hold at reset, and every step keeps them. -/

namespace Sys2Proof.Machine

/-- The invariants do not speak of `LAST` and the sticky flags, which are all that ending a command writes. -/
theorem State.Inv.endWith {s : State} {d : Hdv} (hs : (s.setHdv d).Inv) (o : CmdOutcome) : (s.setHdv (d.endWith o)).Inv :=
  { hs with }

theorem State.Inv.writes {s : State} {e : Hdv} {i : Instr} (hs : s.Inv) (hw : s.toHdv.Writes s.rom i e) :
    (s.setHdv e).Inv := by
  cases hw with
  | nothing => exact hs
  | record r hr => exact ⟨hs.romCanonical, by simp, by simp, by simp, fun h hh => hr h hh ▸ headerOf_overlaps s.rom⟩
  | logo r hd => exact { hs with noRecordNoResult := fun hn => absurd hn hd }
  | hck x r hd hr => exact { hs with hckCalcPresent := by simp [hr], noRecordNoResult := fun hn => absurd hn hd }
  | gck x r hd hr => exact { hs with gckCalcPresent := by simp [hr], noRecordNoResult := fun hn => absurd hn hd }

theorem State.Inv.exec {i : Instr} {s t : State} (hs : s.Inv) (h : exec i s = .next t) : t.Inv := by
  obtain ⟨d, hr, rfl⟩ := exec_next h
  obtain ⟨-, rfl⟩ | ⟨-, e, o, hw, rfl⟩ := runCommand_writes hr
  · exact hs
  · exact (hs.writes hw).endWith o

/-- After a reset of HDV the invariants ask nothing of the host's side but the canonical form of its buffer. -/
theorem State.inv_setHdv_reset {s : State} (h : s.rom.wf = true) : (s.setHdv Hdv.reset).Inv :=
  ⟨h, by simp, by simp, by simp, by simp⟩

end Sys2Proof.Machine

namespace Sys2Proof.Proofs
open Sys2Proof.Machine

/-- Settles O57: the empty buffer is in canonical form, and HDV at reset has neither record nor results. -/
theorem invariantsHoldAtReset : Obligations.InvariantsHoldAtReset :=
  State.inv_setHdv_reset (s := State.reset) Memory.empty_wf

/-- Settles O58: a command keeps the invariants by `State.Inv.exec`, a presented buffer is in canonical form, and the other steps
touch nothing the invariants speak of or bring HDV to reset. -/
theorem stepKeepsInvariants : Obligations.StepKeepsInvariants := by
  intro s t hs h
  obtain ⟨-, rfl⟩ | ⟨rest, -, rfl⟩ | ⟨c, rest, -, he⟩ | ⟨bytes, rest, -, rfl⟩ | ⟨sel, rest, -, rfl⟩ := step_cases s t h
  · exact hs
  · exact State.inv_setHdv_reset hs.romCanonical
  · exact State.Inv.exec (s := { s with script := rest }) { hs with } he
  · exact { hs with romCanonical := Memory.ofBytes_wf bytes }
  · exact { hs with }

end Sys2Proof.Proofs
end

section
/-! Each result describes the record in `HDR`, and `LAST` agrees with the flags and the results (`Hdv.ResultsDescribeRecord`): it
holds at reset, and every step keeps it. -/

namespace Sys2Proof.Machine

/-- The clauses of `Hdv.ResultsDescribeRecord` on the results alone. The writes of a command keep them while `LAST` is still that of
the command before; the clauses on `LAST` hold again once the command has ended (`Hdv.ResultsFitRecord.endWith`). -/
structure Hdv.ResultsFitRecord (d : Hdv) : Prop where
  logoPass : d.logoRes = .pass → ∃ h, d.hdr = some h ∧ h.nintendoLogo = Config.logoRef
  logoFail : d.logoRes = .fail → ∃ h, d.hdr = some h ∧ h.nintendoLogo ≠ Config.logoRef
  hckPass : d.hckRes = .pass → ∃ h, d.hdr = some h ∧ d.hckCalc = some h.headerChecksum
  hckFail : d.hckRes = .fail → ∃ h x, d.hdr = some h ∧ d.hckCalc = some x ∧ x ≠ h.headerChecksum
  gckPass : d.gckRes = .pass → ∃ h, d.hdr = some h ∧ d.gckCalc = some h.globalChecksum
  gckFail : d.gckRes = .fail → ∃ h x, d.hdr = some h ∧ d.gckCalc = some x ∧ x ≠ h.globalChecksum

theorem Hdv.ResultsDescribeRecord.fit {d : Hdv} (hd : d.ResultsDescribeRecord) : d.ResultsFitRecord := { hd with }

/-- A command may end with an outcome when the result field of that outcome, if it is a mismatch, reads `FAIL`. -/
theorem Hdv.ResultsFitRecord.endWith {d : Hdv} {o : CmdOutcome} (hd : d.ResultsFitRecord)
    (hlogo : o = .logoMismatch → d.logoRes = .fail := by simp)
    (hhck : o = .headerChecksumMismatch → d.hckRes = .fail := by simp)
    (hgck : o = .globalChecksumMismatch → d.gckRes = .fail := by simp) : (d.endWith o).ResultsDescribeRecord :=
  { hd with
    lastTruncated := by simp +contextual
    lastNoHeader := by simp +contextual
    lastReserved := by simp +contextual
    lastLogo := hlogo
    lastHck := hhck
    lastGck := hgck }

/-- Right after DECODE's writes there is no result that could fail to describe the record. -/
theorem Hdv.setRecord_resultsFitRecord (r : Option Header) (d : Hdv) : (d.setRecord r).ResultsFitRecord := by
  constructor <;> simp

theorem Hdv.ResultsFitRecord.concludeLogo {d : Hdv} {h : Header} (hd : d.ResultsFitRecord) (hh : d.hdr = some h) :
    (d.concludeLogo h).ResultsDescribeRecord := by
  obtain ⟨heq, e⟩ | ⟨hne, e⟩ := Hdv.concludeLogo_cases h d <;> rw [e]
  · have hfit : (d.setLogo .pass).ResultsFitRecord := { hd with logoPass := fun _ => ⟨h, hh, heq⟩, logoFail := by simp }
    exact hfit.endWith
  · have hfit : (d.setLogo .fail).ResultsFitRecord := { hd with logoPass := by simp, logoFail := fun _ => ⟨h, hh, hne⟩ }
    exact hfit.endWith

theorem Hdv.ResultsFitRecord.concludeHck {d : Hdv} {h : Header} (hd : d.ResultsFitRecord) (hh : d.hdr = some h) (x : Byte) :
    (d.concludeHck h x).ResultsDescribeRecord := by
  obtain ⟨rfl, e⟩ | ⟨hne, e⟩ := Hdv.concludeHck_cases h x d <;> rw [e]
  · have hfit : (d.setHck h.headerChecksum .pass).ResultsFitRecord :=
      { hd with hckPass := fun _ => ⟨h, hh, rfl⟩, hckFail := by simp }
    exact hfit.endWith
  · have hfit : (d.setHck x .fail).ResultsFitRecord :=
      { hd with hckPass := by simp, hckFail := fun _ => ⟨h, x, hh, rfl, hne⟩ }
    exact hfit.endWith

theorem Hdv.ResultsFitRecord.concludeGck {d : Hdv} {h : Header} (hd : d.ResultsFitRecord) (hh : d.hdr = some h) (x : Half) :
    (d.concludeGck h x).ResultsDescribeRecord := by
  obtain ⟨rfl, e⟩ | ⟨hne, e⟩ := Hdv.concludeGck_cases h x d <;> rw [e]
  · have hfit : (d.setGck h.globalChecksum .pass).ResultsFitRecord :=
      { hd with gckPass := fun _ => ⟨h, hh, rfl⟩, gckFail := by simp }
    exact hfit.endWith
  · have hfit : (d.setGck x .fail).ResultsFitRecord :=
      { hd with gckPass := by simp, gckFail := fun _ => ⟨h, x, hh, rfl, hne⟩ }
    exact hfit.endWith

theorem Hdv.ResultsDescribeRecord.runCommand {i : Instr} {rom : Memory} {d d' : Hdv} (hd : d.ResultsDescribeRecord)
    (h : runCommand i rom d = .next d') : d'.ResultsDescribeRecord := by
  obtain ⟨-, rfl⟩ | ⟨-, rfl⟩ | ⟨-, -, rfl⟩ | ⟨-, -, rfl⟩ | ⟨-, -, rfl⟩ | ⟨hh, -, he, rfl⟩ | ⟨hh, -, -, -, rfl⟩ |
    ⟨hh, x, -, he, -, -, rfl⟩ | ⟨hh, x, -, he, -, -, rfl⟩ := runCommand_cases i rom d d' h
  · exact hd
  · exact hd.fit.endWith
  · exact (d.setRecord_resultsFitRecord _).endWith
  · exact (d.setRecord_resultsFitRecord _).endWith
  · exact hd.fit.endWith
  · exact hd.fit.concludeLogo he
  · exact hd.fit.endWith
  · exact hd.fit.concludeHck he x
  · exact hd.fit.concludeGck he x

theorem Hdv.reset_resultsDescribeRecord : Hdv.reset.ResultsDescribeRecord := by
  constructor <;> simp

end Sys2Proof.Machine

namespace Sys2Proof.Proofs
open Sys2Proof.Machine

/-- Settles O59: no check has run at reset, and `LAST` is `OK`. -/
theorem resultsDescribeRecordAtReset : Obligations.ResultsDescribeRecordAtReset := Hdv.reset_resultsDescribeRecord

/-- Settles O60: a step that is no command leaves HDV as it is or brings it to reset, and a command keeps the predicate by
`Hdv.ResultsDescribeRecord.runCommand`. -/
theorem stepKeepsResultsDescribingRecord : Obligations.StepKeepsResultsDescribingRecord := by
  intro s t hs h
  obtain ⟨-, rfl⟩ | ⟨rest, -, rfl⟩ | ⟨c, rest, -, he⟩ | ⟨bytes, rest, -, rfl⟩ | ⟨sel, rest, -, rfl⟩ := step_cases s t h
  · exact hs
  · exact Hdv.reset_resultsDescribeRecord
  · obtain ⟨d, hr, rfl⟩ := exec_next he
    exact hs.runCommand hr
  · exact hs
  · exact hs

end Sys2Proof.Proofs
end

section
/-! `STATUS` as a word (R17, R18) and the read port (R53, R11): the number the fields make, the fields read back from it, and the
registers that hold no value. -/

namespace Sys2Proof.Machine

theorem CheckResult.code_ne_three (r : CheckResult) : r.code ≠ 3 := by cases r <;> decide

theorem CmdOutcome.code_ne_seven (o : CmdOutcome) : o.code ≠ 7 := by cases o <;> decide

/-- Bits set side by side, as a number. -/
theorem toNat_append_eq_add {m n : Nat} (x : BitVec m) (y : BitVec n) : (x ++ y).toNat = x.toNat * 2 ^ n + y.toNat := by
  rw [BitVec.toNat_append, ← Nat.shiftLeft_add_eq_or_of_lt y.isLt, Nat.shiftLeft_eq]

/-- A flag of weight `k`. -/
theorem mul_toNat_eq_ite (k : Nat) (b : Bool) : k * b.toNat = if b then k else 0 := by cases b <;> simp

theorem Hdv.status_toNat (d : Hdv) : d.status.toNat = 1 * d.hdrValid.toNat + 2 * d.logoRes.code.toNat +
    8 * d.hckRes.code.toNat + 32 * d.gckRes.code.toNat + 128 * d.errTrunc.toNat + 256 * d.errNohdr.toNat +
    512 * d.errCmd.toNat + 1024 * d.last.code.toNat := by
  simp only [Hdv.status, toNat_append_eq_add, BitVec.toNat_ofBool, BitVec.toNat_ofNat]
  omega

/-- The reserved bits and the four fields of more than one bit, each cut out of the word: no field reaches into the next. -/
theorem Hdv.status_fields (d : Hdv) : d.status.extractLsb' 13 3 = 0#3 ∧ d.status.extractLsb' 1 2 = d.logoRes.code ∧
    d.status.extractLsb' 3 2 = d.hckRes.code ∧ d.status.extractLsb' 5 2 = d.gckRes.code ∧
    d.status.extractLsb' 10 3 = d.last.code := by
  have hvalid := d.hdrValid.toNat_lt
  have htrunc := d.errTrunc.toNat_lt
  have hnohdr := d.errNohdr.toNat_lt
  have hcmd := d.errCmd.toNat_lt
  have hlast := d.last.code.isLt
  refine ⟨?_, ?_, ?_, ?_, ?_⟩ <;> apply BitVec.eq_of_toNat_eq <;>
    simp only [BitVec.extractLsb'_toNat, Nat.shiftRight_eq_div_pow, d.status_toNat, BitVec.toNat_ofNat] <;> omega

theorem Hdv.reset_status : Hdv.reset.status = 0x0000 := rfl

theorem Hdv.reset_regValue {r : Reg} (hr : r ≠ .status) : Hdv.reset.regValue r = none := by
  cases r with
  | status => exact absurd rfl hr
  | _ => rfl

/-- Without a record the fields of `HDR` and the views, which are all registers but three, hold no value (R11). -/
theorem Hdv.regValue_eq_none_of_no_record {d : Hdv} (hd : d.hdr = none) {r : Reg} (hr : r ∉ [Reg.status, .hckCalc, .gckCalc]) :
    d.regValue r = none := by
  cases r with
  | status | hckCalc | gckCalc => simp at hr
  | _ => simp only [Hdv.regValue, hd, Option.map_none]

/-- The selects 0 to 19 name the fields and the views (R53). -/
theorem regOfSelect_of_lt_twenty : ∀ sel : BitVec 5, sel.toNat < 20 →
    ∃ r, regOfSelect sel = some r ∧ r ∉ [Reg.status, .hckCalc, .gckCalc] := by decide

/-- The selects from 23 on are beyond the list of the registers (R53). -/
theorem regOfSelect_eq_none {sel : BitVec 5} (h : 23 ≤ sel.toNat) : regOfSelect sel = none := List.getElem?_eq_none h

theorem Hdv.readRegister_of_no_value {d : Hdv} {sel : BitVec 5} {r : Reg} (hr : regOfSelect sel = some r)
    (hv : d.regValue r = none) : d.readRegister sel = .refused (.holdsNoValue r) := by
  simp only [Hdv.readRegister, hr, hv]

theorem Hdv.readRegister_of_reserved {d : Hdv} {sel : BitVec 5} (hr : regOfSelect sel = none) :
    d.readRegister sel = .refused (.reservedSelect sel) := by
  simp only [Hdv.readRegister, hr]

theorem step_read (s : State) (sel : BitVec 5) (rest : List HostAction) : step { s with script := .read sel :: rest } =
    .next { s with script := rest, readData := s.readRegister sel } := rfl

end Sys2Proof.Machine

namespace Sys2Proof.Proofs
open Sys2Proof.Machine

/-- Settles O45: the number from the widths of the fields; a field of the word is the code it was made of, and 3 and 7 are no
codes. -/
theorem statusWordLayout : Obligations.StatusWordLayout := by
  intro s
  obtain ⟨hreserved, hlogo, hhck, hgck, hlast⟩ := s.status_fields
  refine ⟨?_, hreserved, hlogo ▸ s.logoRes.code_ne_three, hhck ▸ s.hckRes.code_ne_three,
    hgck ▸ s.gckRes.code_ne_three, hlast ▸ s.last.code_ne_seven⟩
  simp only [Hdv.status_toNat, Hdv.hdrValid, mul_toNat_eq_ite]

/-- Settles O46: the codes are as the model's tables list them. -/
theorem resultAndOutcomeCodes : Obligations.ResultAndOutcomeCodes :=
  ⟨rfl, rfl, rfl, rfl, rfl, rfl, rfl, rfl, rfl, rfl⟩

/-- Settles O6, field by field; the registers and `STATUS` by the lemmas on the reset state. -/
theorem resetStateValues : Obligations.ResetStateValues :=
  ⟨rfl, rfl, rfl, rfl, rfl, rfl, rfl, rfl, rfl, rfl, Hdv.reset_status, fun _ => Hdv.reset_regValue,
    fun _ => ⟨rfl, rfl, rfl⟩⟩

/-- Settles O54: a refused read is a step like any other read, with the refusal in the place of the value. -/
theorem readsWithoutValueAreRefused : Obligations.ReadsWithoutValueAreRefused := by
  intro s sel rest
  refine ⟨fun hd hsel => ?_, fun hx => ?_, fun hx => ?_, fun hsel => ?_⟩
  · obtain ⟨r, hr, hrecord⟩ := regOfSelect_of_lt_twenty sel hsel
    exact ⟨r, hr, by rw [step_read, Hdv.readRegister_of_no_value hr (Hdv.regValue_eq_none_of_no_record hd hrecord)]⟩
  · rw [step_read, Hdv.readRegister_of_no_value (r := .hckCalc) rfl (by simp [Hdv.regValue, hx])]
  · rw [step_read, Hdv.readRegister_of_no_value (r := .gckCalc) rfl (by simp [Hdv.regValue, hx])]
  · rw [step_read, Hdv.readRegister_of_reserved (regOfSelect_eq_none hsel)]

end Sys2Proof.Proofs
end

section
/-! The presented buffer (R30 to R33): its two reads answer the bytes of the sequence it is, no command writes it, and NOP, VLOGO
and the reserved codes do not read it. -/

namespace Sys2Proof.Machine

theorem Memory.ofBytes_byteAt_inside {bytes : List Byte} {a : Nat} (h : a < bytes.length) :
    (Memory.ofBytes bytes).byteAt a = bytes[a] := by
  rw [Memory.ofBytes_byteAt, List.getD_eq_getElem _ _ h]

/-- R30: the transition of a command that reads no memory does not depend on the buffer. -/
theorem runCommand_congr_rom {i : Instr} (hi : i ∈ [Instr.nop, .vlogo, .reserved5, .reserved6, .reserved7])
    (rom rom' : Memory) (d : Hdv) : runCommand i rom d = runCommand i rom' d := by
  cases i with
  | nop | vlogo | reserved5 | reserved6 | reserved7 => rfl
  | decode | vhck | vgck => simp at hi

end Sys2Proof.Machine

namespace Sys2Proof.Proofs
open Sys2Proof.Machine

/-- Settles O11, clause by clause from the law of each read inside and outside the buffer. -/
theorem memReadAnswersBufferBytes : Obligations.MemReadAnswersBufferBytes := by
  intro bytes a n
  refine ⟨fun h => ?_, (Memory.ofBytes bytes).read1_outside a,
    fun h => ⟨_, (Memory.ofBytes bytes).readN_inside a n h, fun i hi => ?_⟩, (Memory.ofBytes bytes).readN_outside a n⟩
  · rw [Memory.read1_inside _ a h, Memory.ofBytes_byteAt_inside h]
  · rw [Memory.slice_getElem, Memory.ofBytes_byteAt_inside]

/-- Settles O12: a command only puts another state of HDV beside the host's side, and the buffer that is read is of the
latter. -/
theorem commandsLeaveHostSideUnchanged : Obligations.CommandsLeaveHostSideUnchanged := by
  intro i s t h
  obtain ⟨d, -, rfl⟩ := exec_next h
  simp

/-- Settles O13: the transition of HDV is the same on both buffers, and either buffer stays where it is. -/
theorem bufferFreeCommandsIgnoreTheBuffer : Obligations.BufferFreeCommandsIgnoreTheBuffer := by
  intro i s t m hi h
  obtain ⟨d, hd, rfl⟩ := exec_next h
  rw [runCommand_congr_rom hi s.rom m] at hd
  rw [exec_eq_onHdv]
  exact State.onHdv_of_next _ _ d hd

end Sys2Proof.Proofs
end

section
/-! The encoding (R50, R65): the two directions between commands and 3-bit words undo each other, a byte carries a word exactly when
it is the word with zeros above, and with that the decoder of bytes and of table words is the inverse of the encoder. -/

namespace Sys2Proof

/-- The statements per instruction, as one. -/
theorem Laws.RoundTrip.statement (i : Instr) : Laws.RoundTrip.Statement i := by
  cases i with
  | nop => exact Laws.RoundTrip.nop
  | decode => exact Laws.RoundTrip.decode
  | vlogo => exact Laws.RoundTrip.vlogo
  | vhck => exact Laws.RoundTrip.vhck
  | vgck => exact Laws.RoundTrip.vgck
  | reserved5 => exact Laws.RoundTrip.reserved5
  | reserved6 => exact Laws.RoundTrip.reserved6
  | reserved7 => exact Laws.RoundTrip.reserved7

@[simp] theorem decodeCommand_encodeCommand (i : Instr) : decodeCommand (encodeCommand i) = i := by
  obtain ⟨-, hword, -, -⟩ := Laws.RoundTrip.statement i
  exact hword

@[simp] theorem encodeCommand_decodeCommand : ∀ c : BitVec 3, encodeCommand (decodeCommand c) = c := by decide

theorem decodeCommand_eq_iff {c : BitVec 3} {i : Instr} : decodeCommand c = i ↔ c = encodeCommand i := by
  constructor <;> rintro rfl <;> simp

/-- A byte is its bits 7:3, which must be zero, above the word in its bits 2:0 (log entry 3). -/
theorem commandByteWf_and_word_iff {b : Byte} {c : BitVec 3} :
    (commandByteWf b = true ∧ b.extractLsb' 0 3 = c) ↔ b = c.setWidth 8 := by
  have hb := b.isLt
  have hc := c.isLt
  simp only [commandByteWf, beq_iff_eq, ← BitVec.toNat_inj, BitVec.extractLsb'_toNat, BitVec.toNat_setWidth,
    BitVec.ofNat_eq_ofNat, BitVec.toNat_ofNat, Nat.shiftRight_eq_div_pow]
  omega

theorem commandOfBytes_eq_ok_iff {bytes : List Byte} {c : BitVec 3} :
    commandOfBytes bytes = .ok c ↔ bytes = [c.setWidth 8] := by
  match bytes with
  | [] => simp [commandOfBytes]
  | [b] =>
    rw [List.singleton_inj, ← commandByteWf_and_word_iff, commandOfBytes]
    split <;> simp [*]
  | _ :: _ :: _ => simp [commandOfBytes]

theorem decodeBytes_eq_ok_iff {bytes : List Byte} {i : Instr} :
    decodeBytes bytes = .ok i ↔ commandOfBytes bytes = .ok (encodeCommand i) := by
  rw [decodeBytes]
  cases commandOfBytes bytes with
  | error e => simp [Except.map]
  | ok c => simp [Except.map, decodeCommand_eq_iff]

/-! ### Words of the opcode table -/

/-- A table word of 8 bits is one byte. -/
theorem tableBytes_eight (w : Nat) : tableBytes 8 w = [BitVec.ofNat 8 w] := by
  simp [tableBytes, ← BitVec.toNat_inj]

theorem commandOfTableWord_eq_some_iff {nbits w : Nat} {c : BitVec 3} :
    commandOfTableWord nbits w = some c ↔ commandOfBytes (tableBytes nbits w) = .ok c := by
  rw [commandOfTableWord]
  cases commandOfBytes (tableBytes nbits w) <;> simp

/-- The 8-bit table words that carry a command are the numbers of the 3-bit words. -/
theorem commandOfTableWord_eight_eq_some_iff {w : Nat} (hw : w < 256) {c : BitVec 3} :
    commandOfTableWord 8 w = some c ↔ w = c.toNat := by
  have hc := c.isLt
  rw [commandOfTableWord_eq_some_iff, commandOfBytes_eq_ok_iff, tableBytes_eight, List.singleton_inj, ← BitVec.toNat_inj,
    BitVec.toNat_ofNat, BitVec.toNat_setWidth]
  omega

theorem commandOfTableWord_eight_of_lt {w : Nat} (hw : w < 8) : commandOfTableWord 8 w = some (BitVec.ofNat 3 w) := by
  rw [commandOfTableWord_eight_eq_some_iff (by omega), BitVec.toNat_ofNat]
  omega

theorem commandOfTableWord_eight_eq_none {w : Nat} (hlow : 8 ≤ w) (hw : w < 256) : commandOfTableWord 8 w = none := by
  rw [Option.eq_none_iff_forall_ne_some]
  intro c h
  have hc := c.isLt
  have hword := (commandOfTableWord_eight_eq_some_iff hw).mp h
  omega

namespace Machine

theorem step_placeCommand (s : State) (c : BitVec 3) : step (s.placeCommand c) = exec (decodeCommand c) s := rfl

theorem State.withFetchWord_of_some {s : State} {nbits w : Nat} {c : BitVec 3} (h : commandOfTableWord nbits w = some c) :
    s.withFetchWord nbits w = s.placeCommand c := by
  simp only [State.withFetchWord, h]

end Machine

end Sys2Proof

namespace Sys2Proof.Proofs
open Sys2Proof.Machine

/-- Settles O2: the bytes carry the word of the command, and only one list of bytes carries a given word. -/
theorem bytesDecodeExactlyToTheirEncoding : Obligations.BytesDecodeExactlyToTheirEncoding :=
  fun _ _ => decodeBytes_eq_ok_iff.trans commandOfBytes_eq_ok_iff

/-- Settles O1: the rows of R50's table, first as the decoder and then as the encoder lists them. -/
theorem commandWordTable : Obligations.CommandWordTable :=
  ⟨⟨rfl, rfl, rfl, rfl, rfl, rfl, rfl, rfl⟩, rfl, rfl, rfl, rfl, rfl, rfl, rfl, rfl⟩

/-- Settles O3: a table word below 8 is the number of its 3-bit word, and a larger one that of none. -/
theorem placedTableWordRuns : Obligations.PlacedTableWordRuns := by
  refine ⟨fun s w hw => ⟨?_, ?_⟩, fun w hlow hw => ?_⟩
  · rw [decodeTableWord, commandOfTableWord_eight_of_lt hw, Option.map_some]
  · rw [State.withFetchWord_of_some (commandOfTableWord_eight_of_lt hw), step_placeCommand]
  · rw [decodeTableWord, commandOfTableWord_eight_eq_none hlow hw, Option.map_none]

end Sys2Proof.Proofs
end

section
/-! What codes and listing items stand for outside HDV: the size of a `rom_size` code (R61) and the host
actions of each item (R66, R67). -/

namespace Sys2Proof.Proofs
open Sys2Proof.Machine

/-- Settles O30: the formula is the definition's, and the three codes are computed by it. -/
theorem romSizeCode : Obligations.RomSizeCode := ⟨fun _ => rfl, by decide, by decide, by decide⟩

/-- Settles O55: each item has the actions that its equation lists, with the words of R50. -/
theorem listingItemsStandForActions : Obligations.ListingItemsStandForActions :=
  ⟨rfl, rfl, rfl, rfl, rfl, rfl, rfl, fun _ => rfl, fun _ => rfl⟩

end Sys2Proof.Proofs
end

section
/-! The read port where a register holds a value (R53): the step gives it to the host. -/

namespace Sys2Proof.Machine

theorem Hdv.readRegister_of_value {d : Hdv} {sel : BitVec 5} {r : Reg} {v : RegValue} (hr : regOfSelect sel = some r)
    (hv : d.regValue r = some v) : d.readRegister sel = .value v := by
  simp only [Hdv.readRegister, hr, hv]

theorem step_read_of_value {s : State} {sel : BitVec 5} {r : Reg} {v : RegValue} (hr : regOfSelect sel = some r)
    (hv : s.regValue r = some v) (rest : List HostAction) :
    step { s with script := .read sel :: rest } = .next { s with script := rest, readData := .value v } := by
  rw [step_read, Hdv.readRegister_of_value hr hv]

end Sys2Proof.Machine

namespace Sys2Proof.Proofs
open Sys2Proof.Machine

/-- Settles O52: each of the selects 0 to 19 names a register that takes its value from the record. -/
theorem recordRegistersReadBack : Obligations.RecordRegistersReadBack := by
  intro s h rest hd sel v hmem
  obtain ⟨r, hr, hv⟩ : ∃ r, regOfSelect sel = some r ∧ s.regValue r = some v := by
    fin_cases hmem <;> exact ⟨_, rfl, by simp only [Hdv.regValue, hd, Option.map_some]⟩
  exact step_read_of_value hr hv rest

/-- Settles O53: `STATUS` holds a value in every state, and a computed checksum where the hypothesis gives it one. -/
theorem statusAndChecksumRegistersReadBack : Obligations.StatusAndChecksumRegistersReadBack := by
  intro s rest
  refine ⟨step_read_of_value (r := .status) rfl rfl rest, fun x hx => ?_, fun x hx => ?_⟩
  · exact step_read_of_value (r := .hckCalc) rfl (by simp only [Hdv.regValue, hx, Option.map_some]) rest
  · exact step_read_of_value (r := .gckCalc) rfl (by simp only [Hdv.regValue, hx, Option.map_some]) rest

end Sys2Proof.Proofs
end

section
/-! DECODE (R80 to R98): its two cases, each with the whole next state, and the header of a buffer as what its reads answer. -/

namespace Sys2Proof.Machine

/-- A command that ends with `OK` sets no sticky flag (R20). -/
theorem Hdv.endWith_ok (d : Hdv) : d.endWith .ok = { d with last := .ok } := by
  simp [Hdv.endWith]

theorem Hdv.endWith_truncatedInput (d : Hdv) :
    d.endWith .truncatedInput = { d with errTrunc := true, last := .truncatedInput } := by
  simp [Hdv.endWith]

/-- Of the state before, a command that writes the record whole keeps only the sticky flags. -/
theorem Hdv.setRecord_endWith_congr {d d' : Hdv} (htrunc : d.errTrunc = d'.errTrunc) (hnohdr : d.errNohdr = d'.errNohdr)
    (hcmd : d.errCmd = d'.errCmd) (r : Option Header) (o : CmdOutcome) :
    (d.setRecord r).endWith o = (d'.setRecord r).endWith o := by
  simp only [Hdv.endWith, Hdv.setRecord, htrunc, hnohdr, hcmd]

theorem exec_decode_short {s : State} (h : s.rom.len < 0x0150) :
    exec .decode s = .next (s.setHdv ((s.setRecord none).endWith .truncatedInput)) := by
  rw [exec_eq_onHdv]
  exact s.onHdv_of_next _ _ (if_pos h)

theorem exec_decode_long {s : State} (h : 0x0150 ≤ s.rom.len) :
    exec .decode s = .next (s.setHdv ((s.setRecord (some (headerOf s.rom))).endWith .ok)) := by
  have hlong : ¬ s.rom.len < Config.minLen := Nat.not_lt.mpr h
  rw [exec_eq_onHdv]
  refine s.onHdv_of_next _ _ ?_
  rw [runCommand, runDecode, if_neg hlong, loadHeader_inside s.rom h, onRead_ok]

/-- An element of a slice inside the buffer is what a read of one byte answers there. -/
theorem Memory.read1_eq_slice_getElem {m : Memory} {a n i : Nat} (hi : i < n) (h : a + n ≤ m.len) :
    m.read1 (a + i) = .ok (m.slice a n)[i] := by
  rw [m.slice_getElem, m.read1_inside _ (by omega)]

/-- Where two reads inside their buffers answer the same, the bytes are the same. -/
theorem Memory.byteAt_eq_of_read1_eq {m m' : Memory} {a : Nat} (h : a < m.len) (h' : a < m'.len)
    (hread : m.read1 a = m'.read1 a) : m.byteAt a = m'.byteAt a := by
  rw [m.read1_inside a h, m'.read1_inside a h'] at hread
  exact Except.ok.inj hread

/-- R108: the header is made of the bytes 0x0100 to 0x014F alone. -/
theorem headerOf_congr {m m' : Memory} (h : ∀ a, 0x0100 ≤ a → a < 0x0150 → m.byteAt a = m'.byteAt a) :
    headerOf m = headerOf m' := by
  have hslice : ∀ a n, 0x0100 ≤ a → a + n ≤ 0x0150 → m.slice a n = m'.slice a n := fun a n hlow hhigh =>
    m.slice_congr m' a n fun i hi => h (a + i) (by omega) (by omega)
  simp [headerOf, hslice, h]

/-- R36: the byte at the lower offset has the weight 256. -/
theorem bigEndian_toNat (high low : Byte) : (bigEndian high low).toNat = high.toNat * 256 + low.toNat :=
  toNat_append_eq_add high low

end Sys2Proof.Machine

namespace Sys2Proof.Proofs
open Sys2Proof.Machine

/-- Settles O18: DECODE leaves the header of the buffer, whose array fields are slices of it. -/
theorem decodeExtractsByteArrays : Obligations.DecodeExtractsByteArrays := by
  intro s hl
  refine ⟨_, headerOf s.rom, exec_decode_long hl, rfl, ?_, ?_, ?_, ?_, ?_⟩ <;>
    exact fun i hi => Memory.read1_eq_slice_getElem hi (by omega)

/-- Settles O19: DECODE leaves the header of the buffer, whose single bytes all lie inside it. -/
theorem decodeExtractsSingleBytes : Obligations.DecodeExtractsSingleBytes := by
  intro s hl
  have hread : ∀ a, a < 0x0150 → s.rom.read1 a = .ok (s.rom.byteAt a) := fun a ha => s.rom.read1_inside a (by omega)
  refine ⟨_, headerOf s.rom, exec_decode_long hl, rfl, ?_⟩
  simp [hread, headerOf]

/-- Settles O20, by `bigEndian_toNat` on the two bytes that the header of the buffer takes. -/
theorem decodeAssemblesGlobalChecksum : Obligations.DecodeAssemblesGlobalChecksum := by
  intro s hl
  exact ⟨_, headerOf s.rom, _, _, exec_decode_long hl, rfl, s.rom.read1_inside 0x014E (by omega),
    s.rom.read1_inside 0x014F (by omega), bigEndian_toNat _ _⟩

/-- Settles O22: with both buffers long the two headers are equal, with both short there is none, and either way only the sticky
flags of the state before remain. -/
theorem decodeDependsOnHeaderBytesOnly : Obligations.DecodeDependsOnHeaderBytesOnly := by
  intro s s' hlen hbytes htrunc hnohdr hcmd
  have hrest := Hdv.setRecord_endWith_congr htrunc hnohdr hcmd
  by_cases hl : 0x0150 ≤ s.rom.len
  · have hl' := hlen.mp hl
    have hheader : headerOf s.rom = headerOf s'.rom := headerOf_congr fun a hlow hhigh =>
      Memory.byteAt_eq_of_read1_eq (by omega) (by omega) (hbytes a hlow hhigh hl)
    refine ⟨_, exec_decode_long hl, ?_⟩
    rw [exec_decode_long hl', ← hheader, ← hrest]
    rfl
  · refine ⟨_, exec_decode_short (by omega), ?_⟩
    rw [exec_decode_short (by omega), ← hrest]
    rfl

/-- Settles O16: what DECODE writes for a short buffer, and the end with `TruncatedInput` written out. -/
theorem decodeOfShortBufferInvalidates : Obligations.DecodeOfShortBufferInvalidates := by
  intro s hl
  rw [exec_decode_short hl, Hdv.endWith_truncatedInput]
  rfl

/-- Settles O17: the record is the header of the buffer. -/
theorem decodeCommitsRecord : Obligations.DecodeCommitsRecord := by
  intro s hl
  refine ⟨headerOf s.rom, ?_⟩
  rw [exec_decode_long hl, Hdv.endWith_ok]
  rfl

end Sys2Proof.Proofs
end

section
/-! The views (R100 to R106): the classes case by case, and the licensee through the table that the sentinel selects. -/

namespace Sys2Proof.Machine

/-! ### The classes -/

theorem cgbClass_eq_none {v : Byte} (henhanced : v ≠ 0x80) (honly : v ≠ 0xC0) : cgbClass v = .none := by
  rw [cgbClass, if_neg henhanced, if_neg honly]

theorem sgbClass_eq_unsupported {v : Byte} (h : v ≠ 0x03) : sgbClass v = .unsupported := if_neg h

theorem destClass_of_some {v : Byte} {label : RegionLabel} (h : Config.destMap v = some label) :
    destClass v = .region label := by
  simp only [destClass, h]

theorem destClass_of_none {v : Byte} (h : Config.destMap v = none) : destClass v = .unknown := by
  simp only [destClass, h]

/-! ### The licensee -/

@[simp] theorem licNameOf_some (n : PublisherName) : licNameOf (some n) = .entry n := rfl

@[simp] theorem licNameOf_none : licNameOf none = .unknown := rfl

theorem Header.licSel_of_sentinel {h : Header} (hs : h.oldLicenseeCode = 0x33) : h.licSel = .new := if_pos hs

theorem Header.licSel_of_ne_sentinel {h : Header} (hs : h.oldLicenseeCode ≠ 0x33) : h.licSel = .old := if_neg hs

/-- R105: with the sentinel only the new table is consulted. -/
theorem Header.licName_of_sentinel {h : Header} (hs : h.oldLicenseeCode = 0x33) :
    h.licName = licNameOf (Config.newLicensee h.newLicenseeCode[0] h.newLicenseeCode[1]) := by
  simp only [Header.licName, Header.licSel_of_sentinel hs]

/-- R104: without the sentinel only the old table is consulted. -/
theorem Header.licName_of_ne_sentinel {h : Header} (hs : h.oldLicenseeCode ≠ 0x33) :
    h.licName = licNameOf (Config.oldLicensee h.oldLicenseeCode) := by
  simp only [Header.licName, Header.licSel_of_ne_sentinel hs]

end Sys2Proof.Machine

namespace Sys2Proof.Proofs
open Sys2Proof.Machine

/-- Settles O27: on each side of the sentinel the name is the lookup in one table, whose quoted keys have their own equations. -/
theorem licenseeResolution : Obligations.LicenseeResolution := by
  intro h
  refine ⟨fun hs => ?_, fun hs => ?_, rfl, rfl⟩
  · rw [Header.licName_of_sentinel hs]
    refine ⟨Header.licSel_of_sentinel hs, fun n hn => ?_, fun hmiss => ?_, fun h0 h1 => ?_, fun hhigh => ?_⟩
    · rw [hn, licNameOf_some]
    · rw [hmiss, licNameOf_none]
    · rw [h0, h1, Config.newLicensee_ascii_zero_one, licNameOf_some]
    · rw [Config.newLicensee_eq_none_of_high hhigh, licNameOf_none]
  · rw [Header.licName_of_ne_sentinel hs]
    refine ⟨Header.licSel_of_ne_sentinel hs, fun n hn => ?_, fun hmiss => ?_, fun hone => ?_, fun hfe => ?_⟩
    · rw [hn, licNameOf_some]
    · rw [hmiss, licNameOf_none]
    · rw [hone, Config.oldLicensee_one, licNameOf_some]
    · rw [hfe, Config.oldLicensee_fe, licNameOf_none]

/-- Settles O28: on each side of the sentinel the name is a lookup by one of the two codes only. -/
theorem licenseeTablesAreExclusive : Obligations.LicenseeTablesAreExclusive := by
  intro h h' hold
  refine ⟨fun hs => ?_, fun hs hnew => ?_⟩
  · rw [Header.licName_of_ne_sentinel hs, Header.licName_of_ne_sentinel (hold ▸ hs), hold]
  · rw [Header.licName_of_sentinel hs, Header.licName_of_sentinel (hold ▸ hs), hnew]

/-- Settles O24: the two listed bytes are computed, and any other byte fails both comparisons. -/
theorem cgbClassOfWholeByte : Obligations.CgbClassOfWholeByte :=
  ⟨rfl, rfl, fun _ => cgbClass_eq_none, rfl, rfl, rfl⟩

/-- Settles O25: the listed byte is computed, and any other byte fails the comparison. -/
theorem sgbClassOfWholeByte : Obligations.SgbClassOfWholeByte :=
  ⟨rfl, fun _ => sgbClass_eq_unsupported, rfl, rfl⟩

/-- Settles O26, by the two cases of the map's answer. -/
theorem destClassFollowsTheMap : Obligations.DestClassFollowsTheMap :=
  ⟨fun _ _ => destClass_of_some, fun _ => destClass_of_none⟩

end Sys2Proof.Proofs
end

section
/-! VLOGO (R120, R124): its three cases, each with the whole next state, and DECODE before it. -/

namespace Sys2Proof.Machine

theorem Hdv.endWith_noHeader (d : Hdv) : d.endWith .noHeader = { d with errNohdr := true, last := .noHeader } := by
  simp [Hdv.endWith]

theorem Hdv.endWith_logoMismatch (d : Hdv) : d.endWith .logoMismatch = { d with last := .logoMismatch } := by
  simp [Hdv.endWith]

theorem Hdv.concludeLogo_of_eq {h : Header} (hl : h.nintendoLogo = Config.logoRef) (d : Hdv) :
    d.concludeLogo h = { d with logoRes := .pass, last := .ok } := by
  rw [Hdv.concludeLogo, if_pos hl, Hdv.endWith_ok]
  rfl

theorem Hdv.concludeLogo_of_ne {h : Header} (hl : h.nintendoLogo ≠ Config.logoRef) (d : Hdv) :
    d.concludeLogo h = { d with logoRes := .fail, last := .logoMismatch } := by
  rw [Hdv.concludeLogo, if_neg hl, Hdv.endWith_logoMismatch]
  rfl

theorem exec_vlogo_of_no_record {s : State} (hs : s.hdr = none) :
    exec .vlogo s = .next (s.setHdv (s.endWith .noHeader)) := by
  rw [exec_eq_onHdv]
  exact s.onHdv_of_next _ _ (Hdv.withRecord_none _ _ hs)

theorem exec_vlogo_of_record {s : State} {h : Header} (hs : s.hdr = some h) :
    exec .vlogo s = .next (s.setHdv (s.concludeLogo h)) := by
  rw [exec_eq_onHdv]
  exact s.onHdv_of_next _ _ (Hdv.withRecord_some _ _ h hs)

theorem execAll_cons_of_next {i : Instr} {s t : State} (h : exec i s = .next t) (rest : List Instr) :
    execAll (i :: rest) s = execAll rest t := by
  simp only [execAll, h]

@[simp] theorem execAll_singleton (i : Instr) (s : State) : execAll [i] s = exec i s := by
  rw [execAll]
  cases exec i s <;> rfl

/-- A slice inside the buffer is known by what the reads of one byte answer there. -/
theorem Memory.slice_eq_iff_read1 {m : Memory} {a n : Nat} (h : a + n ≤ m.len) (v : Vector Byte n) :
    m.slice a n = v ↔ ∀ i (hi : i < n), m.read1 (a + i) = .ok v[i] := by
  rw [Vector.ext_iff]
  refine forall₂_congr fun i hi => ?_
  rw [Memory.read1_eq_slice_getElem hi h, Except.ok.injEq]

theorem headerOf_nintendoLogo_eq_iff {m : Memory} (h : 0x0150 ≤ m.len) (logo : Vector Byte 48) :
    (headerOf m).nintendoLogo = logo ↔ ∀ i (hi : i < 48), m.read1 (0x0104 + i) = .ok logo[i] :=
  Memory.slice_eq_iff_read1 (by omega) logo

end Sys2Proof.Machine

namespace Sys2Proof.Proofs
open Sys2Proof.Machine

/-- Settles O31: without a record by the first test of a validator, with one by whether its logo is the reference, which is a
matter of the 48 bytes. -/
theorem vlogoResult : Obligations.VlogoResult := by
  intro s
  refine ⟨fun hs => ?_, fun h hs => ⟨fun hall => ?_, fun ⟨i, hi, hne⟩ => ?_⟩⟩
  · rw [exec_vlogo_of_no_record hs, Hdv.endWith_noHeader]
    rfl
  · have hl : h.nintendoLogo = Config.logoRef := Vector.ext hall
    rw [exec_vlogo_of_record hs, Hdv.concludeLogo_of_eq hl]
    rfl
  · have hl : h.nintendoLogo ≠ Config.logoRef := fun heq => hne (by rw [heq])
    rw [exec_vlogo_of_record hs, Hdv.concludeLogo_of_ne hl]
    rfl

/-- Settles O32: the record that VLOGO compares is the header of the buffer, whose logo is the slice at 0x0104. -/
theorem decodeThenVlogoPassesIffLogoMatches : Obligations.DecodeThenVlogoPassesIffLogoMatches := by
  intro s hl
  rw [execAll_cons_of_next (exec_decode_long hl), execAll_singleton, exec_vlogo_of_record rfl]
  refine ⟨_, rfl, ?_⟩
  rw [← headerOf_nintendoLogo_eq_iff hl, State.setHdv_toHdv]
  obtain ⟨heq, e⟩ | ⟨hne, e⟩ := Hdv.concludeLogo_cases (headerOf s.rom) _ <;> rw [e]
  · simp [heq]
  · simp [hne]

end Sys2Proof.Proofs
end

section
/-! The hexadecimal rendering (R121 to R123): three characters a byte but the last, each byte's digits where it stands, and the
parser as the left inverse, which makes the rendering injective. -/

namespace Sys2Proof.Machine

/-! ### The form of the rendering -/

@[simp] theorem hexRender_nil : hexRender [] = [] := rfl

@[simp] theorem hexRender_singleton (b : Byte) :
    hexRender [b] = [hexDigit (b.extractLsb' 4 4), hexDigit (b.extractLsb' 0 4)] := rfl

theorem hexRender_cons_cons (b c : Byte) (rest : List Byte) : hexRender (b :: c :: rest) =
    hexDigit (b.extractLsb' 4 4) :: hexDigit (b.extractLsb' 0 4) :: ' ' :: hexRender (c :: rest) := rfl

theorem hexRender_length (bs : List Byte) : (hexRender bs).length = 3 * bs.length - 1 := by
  match bs with
  | [] => rfl
  | [b] => rfl
  | b :: c :: rest =>
    have ih := hexRender_length (c :: rest)
    simp only [hexRender_cons_cons, List.length_cons] at ih ⊢
    omega

/-- From the character `3i` on the rendering is that of the bytes from byte `i` on. -/
theorem hexRender_drop (bs : List Byte) (i : Nat) : (hexRender bs).drop (3 * i) = hexRender (bs.drop i) := by
  match bs, i with
  | _, 0 => rfl
  | [], i + 1 => simp
  | [b], i + 1 => simp [Nat.mul_add]
  | b :: c :: rest, i + 1 => exact hexRender_drop (c :: rest) i

/-- Character `3i + k` of the rendering is character `k` of the rendering from byte `i` on. -/
theorem hexRender_getElem?_add {bs : List Byte} {i : Nat} (hi : i < bs.length) (k : Nat) :
    (hexRender bs)[3 * i + k]? = (hexRender (bs[i] :: bs.drop (i + 1)))[k]? := by
  rw [← List.getElem?_drop, hexRender_drop, List.drop_eq_getElem_cons hi]

theorem hexRender_cons_getElem?_zero (b : Byte) (rest : List Byte) :
    (hexRender (b :: rest))[0]? = some (hexDigit (b.extractLsb' 4 4)) := by
  cases rest <;> rfl

theorem hexRender_cons_getElem?_one (b : Byte) (rest : List Byte) :
    (hexRender (b :: rest))[1]? = some (hexDigit (b.extractLsb' 0 4)) := by
  cases rest <;> rfl

theorem hexRender_cons_getElem?_two (b : Byte) {rest : List Byte} (hr : rest ≠ []) :
    (hexRender (b :: rest))[2]? = some ' ' := by
  cases rest with
  | nil => exact absurd rfl hr
  | cons c rest => rfl

/-! ### The parser -/

@[simp] theorem hexValue_hexDigit : ∀ n : BitVec 4, hexValue (hexDigit n) = some n := by decide

/-- A byte is its high nibble above its low nibble. -/
theorem nibbles_append (b : Byte) : b.extractLsb' 4 4 ++ b.extractLsb' 0 4 = b := by
  have hb := b.isLt
  apply BitVec.eq_of_toNat_eq
  simp only [toNat_append_eq_add, BitVec.extractLsb'_toNat, Nat.shiftRight_eq_div_pow]
  omega

@[simp] theorem hexByte_hexDigits (b : Byte) :
    hexByte (hexDigit (b.extractLsb' 4 4)) (hexDigit (b.extractLsb' 0 4)) = some b := by
  simp only [hexByte, hexValue_hexDigit, nibbles_append]

/-- R123, by the recursion of the rendering. -/
theorem hexParse_hexRender {bs : List Byte} (hbs : bs ≠ []) : hexParse (hexRender bs) = some bs := by
  match bs with
  | [b] => simp [hexParse]
  | b :: c :: rest =>
    have ih := hexParse_hexRender (List.cons_ne_nil c rest)
    simp only [hexRender_cons_cons, hexParse, hexByte_hexDigits, ih]

/-- The parser undoes the rendering on every list of bytes, when no value counts as the empty list. -/
theorem hexParse_hexRender_getD (bs : List Byte) : (hexParse (hexRender bs)).getD [] = bs := by
  cases bs with
  | nil => rfl
  | cons b rest => rw [hexParse_hexRender (List.cons_ne_nil b rest), Option.getD_some]

theorem hexRender_injective : Function.Injective hexRender :=
  Function.LeftInverse.injective (g := fun cs => (hexParse cs).getD []) hexParse_hexRender_getD

theorem logo_toList_ne_nil (v : Vector Byte 48) : v.toList ≠ [] := List.ne_nil_of_length_pos (by simp)

end Sys2Proof.Machine

namespace Sys2Proof.Proofs
open Sys2Proof.Machine

/-- Settles O33: the characters at byte `i` are the first ones of the rendering from byte `i` on. -/
theorem hexRenderingForm : Obligations.HexRenderingForm := by
  intro bs _
  refine ⟨hexRender_length bs, fun i hi => ⟨?_, ?_, fun hnext => ?_⟩, rfl, rfl⟩
  · exact (hexRender_getElem?_add hi 0).trans (hexRender_cons_getElem?_zero _ _)
  · exact (hexRender_getElem?_add hi 1).trans (hexRender_cons_getElem?_one _ _)
  · have hrest : bs.drop (i + 1) ≠ [] := by simpa using hnext
    exact (hexRender_getElem?_add hi 2).trans (hexRender_cons_getElem?_two _ hrest)

/-- Settles O34: the rendering has a left inverse, and the 48 bytes of a logo are its list of bytes. -/
theorem hexRenderingIsInjective : Obligations.HexRenderingIsInjective :=
  ⟨fun _ _ _ h => hexRender_injective h, fun _ => hexRender_injective.eq_iff.trans Vector.toList_inj⟩

/-- Settles O35, by `hexParse_hexRender`; an array of 48 bytes is not empty. -/
theorem hexRoundTrip : Obligations.HexRoundTrip :=
  ⟨fun b => hexParse_hexRender (logo_toList_ne_nil b), fun _ => hexParse_hexRender⟩

end Sys2Proof.Proofs
end

section
/-! The two checksum functions (R130 to R132, R135, R136): each as a fold of its step over slices of the buffer, what such a fold
is as a number, and the header checksum over the copies in the record. -/

namespace Sys2Proof.Machine

/-! ### The folds of the two steps as numbers -/

/-- R141: one step of the header checksum over the integers, reduced. -/
theorem hckStep_toNat (x b : Byte) : ((hckStep x b).toNat : Int) = (x.toNat - b.toNat - 1) % 256 := by
  have hx := x.isLt
  have hb := b.isLt
  have hone : (1 : Byte).toNat = 1 := rfl
  simp only [hckStep, BitVec.toNat_sub, hone]
  omega

/-- R131: reduction modulo 256 commutes with the steps, so it is done once at the end. -/
theorem foldl_hckStep_toNat (bs : List Byte) (x : Byte) :
    ((bs.foldl hckStep x).toNat : Int) = (x.toNat - (bs.map BitVec.toNat).sum - bs.length) % 256 := by
  induction bs generalizing x with
  | nil =>
    have hx := x.isLt
    simp only [List.foldl_nil, List.map_nil, List.sum_nil, List.length_nil]
    omega
  | cons b bs ih =>
    rw [List.foldl_cons, ih, hckStep_toNat]
    simp only [List.map_cons, List.sum_cons, List.length_cons]
    omega

/-- R141: one step of the global checksum over the naturals, reduced. -/
theorem gckStep_toNat (x : Half) (b : Byte) : (gckStep x b).toNat = (x.toNat + b.toNat) % 65536 := by
  have hb := b.isLt
  simp only [gckStep, BitVec.toNat_add, BitVec.toNat_setWidth]
  omega

/-- R136: reduction modulo 65536 commutes with the steps, so it is done once at the end. -/
theorem foldl_gckStep_toNat (bs : List Byte) (x : Half) :
    (bs.foldl gckStep x).toNat = (x.toNat + (bs.map BitVec.toNat).sum) % 65536 := by
  induction bs generalizing x with
  | nil =>
    have hx := x.isLt
    simp only [List.foldl_nil, List.map_nil, List.sum_nil]
    omega
  | cons b bs ih =>
    rw [List.foldl_cons, ih, gckStep_toNat]
    simp only [List.map_cons, List.sum_cons]
    omega

/-- The sum of bytes that are all the same one. -/
theorem sum_toNat_of_forall_eq {bs : List Byte} {c : Byte} (h : ∀ b ∈ bs, b = c) :
    (bs.map BitVec.toNat).sum = bs.length * c.toNat := by
  rw [List.eq_replicate_of_mem h]
  simp

/-! ### The checksums as folds over slices of the buffer -/

/-- A slice of the buffer that a byte sequence is, inside it. -/
theorem Memory.ofBytes_slice_toList {bytes : List Byte} {a n : Nat} (h : a + n ≤ bytes.length) :
    ((Memory.ofBytes bytes).slice a n).toList = (bytes.drop a).take n := by
  apply List.ext_getElem
  · rw [Vector.length_toList, List.length_take, List.length_drop]
    omega
  · intro i hi _
    rw [Vector.length_toList] at hi
    have hin : a + i < bytes.length := by omega
    simp [hin]

/-- R130: the loop of the header checksum visits the 25 bytes from 0x0134 on. -/
theorem hck_eq_foldl_slice {m : Memory} (h : 0x0150 ≤ m.len) :
    hck m = .ok ((m.slice 0x0134 25).toList.foldl hckStep 0) := by
  rw [Memory.slice_toList]
  exact hckFrom_inside m 25 0x0134 0 (by omega)

/-- Where none of its offsets is left out, a stretch of the global-checksum loop adds up a slice. -/
theorem foldl_gckTerm_range' (m : Memory) {a n : Nat} (h : ∀ i < n, isGlobalChecksumOffset (a + i) = false) (x : Half) :
    (List.range' a n).foldl (gckTerm m) x = (m.slice a n).toList.foldl gckStep x := by
  rw [Memory.slice_toList, List.range'_eq_map_range, List.foldl_map, List.foldl_map]
  refine List.foldl_ext _ _ x fun y i hi => ?_
  rw [gckTerm, h i (List.mem_range.mp hi)]
  rfl

/-- R135: the loop of the global checksum visits the bytes below 0x014E and those from 0x0150 on. -/
theorem gck_eq_foldl_slices {m : Memory} (h : 0x0150 ≤ m.len) :
    gck m = .ok (((m.slice 0 0x014E).toList ++ (m.slice 0x0150 (m.len - 0x0150)).toList).foldl gckStep 0) := by
  have hsplit : List.range' 0 m.len =
      List.range' 0 0x014E ++ ([0x014E, 0x014F] ++ List.range' 0x0150 (m.len - 0x0150)) := by
    have hstored : [0x014E, 0x014F] = List.range' 0x014E 2 := rfl
    have hlen : 0x014E + (2 + (m.len - 0x0150)) = m.len := by omega
    rw [hstored, List.range'_append_1, List.range'_append_1, hlen]
  have hskip (x : Half) : [0x014E, 0x014F].foldl (gckTerm m) x = x := rfl
  have hoffset {i : Nat} (h : i ≠ 0x014E ∧ i ≠ 0x014F) : isGlobalChecksumOffset i = false := by
    simp [isGlobalChecksumOffset, h]
  rw [gck, gckFrom_inside m _ _ _ (by omega), hsplit, List.foldl_append, List.foldl_append, List.foldl_append, hskip,
    foldl_gckTerm_range' m fun i hi => hoffset (by omega), foldl_gckTerm_range' m fun i hi => hoffset (by omega)]

theorem hck_ofBytes {bytes : List Byte} (h : 0x0150 ≤ bytes.length) :
    hck (Memory.ofBytes bytes) = .ok (((bytes.drop 0x0134).take 25).foldl hckStep 0) := by
  rw [hck_eq_foldl_slice h, Memory.ofBytes_slice_toList (by omega)]

theorem gck_ofBytes {bytes : List Byte} (h : 0x0150 ≤ bytes.length) :
    gck (Memory.ofBytes bytes) = .ok ((bytes.take 0x014E ++ bytes.drop 0x0150).foldl gckStep 0) := by
  rw [gck_eq_foldl_slices h, Memory.ofBytes_len, Memory.ofBytes_slice_toList (by omega),
    Memory.ofBytes_slice_toList (by omega), List.drop_zero, List.take_of_length_le (i := bytes.length - 0x0150) (by simp)]

/-! ### The copies in the record -/

/-- R130, R132: the fields of the header that follow one another in the span of the header checksum. -/
theorem slice_hckSpan_toList (m : Memory) : (m.slice 0x0134 25).toList =
    (headerOf m).title.toList ++ (headerOf m).newLicenseeCode.toList ++ [(headerOf m).sgbFlag, (headerOf m).cartridgeType,
      (headerOf m).romSize, (headerOf m).ramSize, (headerOf m).destinationCode, (headerOf m).oldLicenseeCode,
      (headerOf m).versionNumber] := rfl

/-- All that a DECODE that leaves a record can have done. -/
theorem exec_decode_record {s t : State} {h : Header} (he : exec .decode s = .next t) (hh : t.hdr = some h) :
    0x0150 ≤ s.rom.len ∧ t.rom = s.rom ∧ h = headerOf s.rom := by
  by_cases hl : 0x0150 ≤ s.rom.len
  · rw [exec_decode_long hl] at he
    cases he
    cases hh
    exact ⟨hl, rfl, rfl⟩
  · rw [exec_decode_short (by omega)] at he
    cases he
    cases hh

end Sys2Proof.Machine

namespace Sys2Proof.Proofs
open Sys2Proof.Machine

/-- Settles O38, by `hck_ofBytes`. -/
theorem headerChecksumRunsOverTheSpan : Obligations.HeaderChecksumRunsOverTheSpan := fun _ => hck_ofBytes

/-- Settles O39: the fold over the span as a number; a span of one byte value sums to 25 times it. -/
theorem headerChecksumClosedForm : Obligations.HeaderChecksumClosedForm := by
  intro bytes hl
  have hspan : ((bytes.drop 0x0134).take 25).length = 25 := by
    rw [List.length_take, List.length_drop]
    omega
  have hstart : (0 : Byte).toNat = 0 := rfl
  have hform := foldl_hckStep_toNat ((bytes.drop 0x0134).take 25) 0
  rw [hspan, hstart] at hform
  refine ⟨_, hck_ofBytes hl, by omega, fun hzero => ?_, fun hff => ?_⟩ <;> apply BitVec.eq_of_toNat_eq
  · rw [sum_toNat_of_forall_eq hzero, hspan] at hform
    exact Int.ofNat_inj.mp hform
  · rw [sum_toNat_of_forall_eq hff, hspan] at hform
    exact Int.ofNat_inj.mp hform

/-- Settles O40: the record is the header of the buffer, whose fields make up the span. -/
theorem headerChecksumFromTheRecord : Obligations.HeaderChecksumFromTheRecord := by
  intro s t h he hh
  obtain ⟨hl, hrom, rfl⟩ := exec_decode_record he hh
  rw [hrom, hck_eq_foldl_slice hl, slice_hckSpan_toList]
  exact ⟨rfl, s.rom.read1_inside 0x014D (by omega)⟩

/-- Settles O41, by `gck_ofBytes`. -/
theorem globalChecksumSumsAllOtherBytes : Obligations.GlobalChecksumSumsAllOtherBytes := fun _ => gck_ofBytes

/-- Settles O42: the fold over the summed bytes as a number; `n - 2` bytes of one value sum to `n - 2` times it. -/
theorem globalChecksumClosedForm : Obligations.GlobalChecksumClosedForm := by
  intro bytes hl
  have hlength : (bytes.take 0x014E ++ bytes.drop 0x0150).length = bytes.length - 2 := by
    rw [List.length_append, List.length_take, List.length_drop]
    omega
  have hmem : ∀ b ∈ bytes.take 0x014E ++ bytes.drop 0x0150, b ∈ bytes := fun b hb =>
    (List.mem_append.mp hb).elim List.mem_of_mem_take List.mem_of_mem_drop
  have hstart : (0 : Half).toNat = 0 := rfl
  have hform := foldl_gckStep_toNat (bytes.take 0x014E ++ bytes.drop 0x0150) 0
  rw [hstart, Nat.zero_add] at hform
  refine ⟨_, gck_ofBytes hl, hform, fun hzero => ?_, fun hff => ?_⟩
  · apply BitVec.eq_of_toNat_eq
    rw [hform, sum_toNat_of_forall_eq fun b hb => hzero b (hmem b hb)]
    simp
  · rw [hform, sum_toNat_of_forall_eq fun b hb => hff b (hmem b hb), hlength]
    rfl

end Sys2Proof.Proofs
end

section
/-! VHCK and VGCK (R134, R139): the cases that end before a checksum is computed, once for both, and the comparison of each. -/

namespace Sys2Proof.Machine

theorem Hdv.endWith_headerChecksumMismatch (d : Hdv) :
    d.endWith .headerChecksumMismatch = { d with last := .headerChecksumMismatch } := by
  simp [Hdv.endWith]

theorem Hdv.endWith_globalChecksumMismatch (d : Hdv) :
    d.endWith .globalChecksumMismatch = { d with last := .globalChecksumMismatch } := by
  simp [Hdv.endWith]

theorem exec_of_runCommand {i : Instr} {s : State} {d : Hdv} (h : runCommand i s.rom s.toHdv = .next d) :
    exec i s = .next (s.setHdv d) := by
  rw [exec_eq_onHdv]
  exact s.onHdv_of_next _ d h

/-! ### The transitions of HDV -/

/-- R133, R138, R168: every validator tests first for a record. -/
theorem runCommand_validator_of_no_record {i : Instr} (hi : i ∈ [Instr.vlogo, .vhck, .vgck]) (rom : Memory) {d : Hdv}
    (hd : d.hdr = none) : runCommand i rom d = .next (d.endWith .noHeader) := by
  simp only [List.mem_cons, List.not_mem_nil, or_false] at hi
  obtain rfl | rfl | rfl := hi <;> exact Hdv.withRecord_none _ _ hd

/-- R133, R138, R168: with a record the checksum commands test the length of the buffer. -/
theorem runCommand_checksum_of_short {i : Instr} (hi : i ∈ [Instr.vhck, .vgck]) {rom : Memory} {d : Hdv} {h : Header}
    (hd : d.hdr = some h) (hl : rom.len < 0x0150) : runCommand i rom d = .next (d.endWith .truncatedInput) := by
  simp only [List.mem_cons, List.not_mem_nil, or_false] at hi
  obtain rfl | rfl := hi <;> exact (Hdv.withRecord_some _ _ h hd).trans (Hdv.withBuffer_short _ _ _ hl)

theorem runCommand_vlogo_of_record (rom : Memory) {d : Hdv} {h : Header} (hd : d.hdr = some h) :
    runCommand .vlogo rom d = .next (d.concludeLogo h) :=
  Hdv.withRecord_some _ _ h hd

theorem runCommand_vhck_of_long {rom : Memory} {d : Hdv} {h : Header} {x : Byte} (hd : d.hdr = some h)
    (hl : 0x0150 ≤ rom.len) (hx : hck rom = .ok x) : runCommand .vhck rom d = .next (d.concludeHck h x) := by
  rw [runCommand, runVhck, Hdv.withRecord_some _ _ h hd, Hdv.withBuffer_long _ _ _ hl, hx, onRead_ok]

theorem runCommand_vgck_of_long {rom : Memory} {d : Hdv} {h : Header} {x : Half} (hd : d.hdr = some h)
    (hl : 0x0150 ≤ rom.len) (hx : gck rom = .ok x) : runCommand .vgck rom d = .next (d.concludeGck h x) := by
  rw [runCommand, runVgck, Hdv.withRecord_some _ _ h hd, Hdv.withBuffer_long _ _ _ hl, hx, onRead_ok]

/-! ### The comparisons, written out -/

theorem Hdv.concludeHck_of_eq {h : Header} {x : Byte} (hx : x = h.headerChecksum) (d : Hdv) :
    d.concludeHck h x = { d with hckCalc := some x, hckRes := .pass, last := .ok } := by
  rw [Hdv.concludeHck, if_pos hx, Hdv.endWith_ok]
  rfl

theorem Hdv.concludeHck_of_ne {h : Header} {x : Byte} (hx : x ≠ h.headerChecksum) (d : Hdv) :
    d.concludeHck h x = { d with hckCalc := some x, hckRes := .fail, last := .headerChecksumMismatch } := by
  rw [Hdv.concludeHck, if_neg hx, Hdv.endWith_headerChecksumMismatch]
  rfl

theorem Hdv.concludeGck_of_eq {h : Header} {x : Half} (hx : x = h.globalChecksum) (d : Hdv) :
    d.concludeGck h x = { d with gckCalc := some x, gckRes := .pass, last := .ok } := by
  rw [Hdv.concludeGck, if_pos hx, Hdv.endWith_ok]
  rfl

theorem Hdv.concludeGck_of_ne {h : Header} {x : Half} (hx : x ≠ h.globalChecksum) (d : Hdv) :
    d.concludeGck h x = { d with gckCalc := some x, gckRes := .fail, last := .globalChecksumMismatch } := by
  rw [Hdv.concludeGck, if_neg hx, Hdv.endWith_globalChecksumMismatch]
  rfl

/-! ### The ends without a checksum, as whole next states -/

theorem exec_validator_of_no_record {i : Instr} (hi : i ∈ [Instr.vlogo, .vhck, .vgck]) {s : State} (hs : s.hdr = none) :
    exec i s = .next { s with errNohdr := true, last := .noHeader } := by
  rw [exec_of_runCommand (runCommand_validator_of_no_record hi s.rom hs), Hdv.endWith_noHeader]
  rfl

theorem exec_checksum_of_short {i : Instr} (hi : i ∈ [Instr.vhck, .vgck]) {s : State} {h : Header} (hs : s.hdr = some h)
    (hl : s.rom.len < 0x0150) : exec i s = .next { s with errTrunc := true, last := .truncatedInput } := by
  rw [exec_of_runCommand (runCommand_checksum_of_short hi hs hl), Hdv.endWith_truncatedInput]
  rfl

end Sys2Proof.Machine

namespace Sys2Proof.Proofs
open Sys2Proof.Machine

/-- Settles O36: the two tests in their order, and then the comparison with the stored byte. -/
theorem vhckResult : Obligations.VhckResult := by
  intro s
  refine ⟨exec_validator_of_no_record (by simp), fun h hs => ⟨exec_checksum_of_short (by simp) hs, fun hl => ?_⟩⟩
  obtain ⟨x, hx⟩ := hck_inside s.rom hl
  have hexec := exec_of_runCommand (runCommand_vhck_of_long hs hl hx)
  refine ⟨x, hx, fun heq => ?_, fun hne => ?_⟩
  · rw [hexec, Hdv.concludeHck_of_eq heq]
    rfl
  · rw [hexec, Hdv.concludeHck_of_ne hne]
    rfl

/-- Settles O37: the two tests in their order, and then the comparison with the stored number. -/
theorem vgckResult : Obligations.VgckResult := by
  intro s
  refine ⟨exec_validator_of_no_record (by simp), fun h hs => ⟨exec_checksum_of_short (by simp) hs, fun hl => ?_⟩⟩
  obtain ⟨x, hx⟩ := gck_inside s.rom
  have hexec := exec_of_runCommand (runCommand_vgck_of_long hs hl hx)
  refine ⟨x, hx, fun heq => ?_, fun hne => ?_⟩
  · rw [hexec, Hdv.concludeGck_of_eq heq]
    rfl
  · rw [hexec, Hdv.concludeGck_of_ne hne]
    rfl

end Sys2Proof.Proofs
end

section
/-! Independence of the validators (R140): a record and a buffer fix what a validator writes and its outcome, and the writes of two
different validators commute with each other and with the end of a command, so that the order shows in `LAST` only. -/

namespace Sys2Proof.Machine

/-- `ValidatorWrite i w`: `w` is a write that the validator `i` can make before it ends. `runCommand_validator` ties it to the
commands. -/
inductive ValidatorWrite : Instr → (Hdv → Hdv) → Prop
  /-- no record, or too short a buffer (R133, R138) -/
  | nothing (i : Instr) : ValidatorWrite i id
  /-- VLOGO (R120) -/
  | logo (r : CheckResult) : ValidatorWrite .vlogo (Hdv.setLogo r)
  /-- VHCK (R134) -/
  | hck (x : Byte) (r : CheckResult) : ValidatorWrite .vhck (Hdv.setHck x r)
  /-- VGCK (R139) -/
  | gck (x : Half) (r : CheckResult) : ValidatorWrite .vgck (Hdv.setGck x r)

theorem ValidatorWrite.hdr_eq {i : Instr} {w : Hdv → Hdv} (hw : ValidatorWrite i w) (d : Hdv) : (w d).hdr = d.hdr := by
  cases hw <;> rfl

theorem ValidatorWrite.endWith_comm {i : Instr} {w : Hdv → Hdv} (hw : ValidatorWrite i w) (o : CmdOutcome) (d : Hdv) :
    w (d.endWith o) = (w d).endWith o := by
  cases hw <;> rfl

/-- Different validators write different fields. -/
theorem ValidatorWrite.comm {i j : Instr} {w v : Hdv → Hdv} (hij : i ≠ j) (hw : ValidatorWrite i w)
    (hv : ValidatorWrite j v) (d : Hdv) : w (v d) = v (w d) := by
  cases hw <;> cases hv
  case logo.logo | hck.hck | gck.gck => exact absurd rfl hij
  all_goals rfl

theorem Hdv.endWith_endWith_comm (d : Hdv) (o p : CmdOutcome) :
    (d.endWith p).endWith o = { (d.endWith o).endWith p with last := o } := by
  simp only [Hdv.endWith, Bool.or_right_comm]

/-! ### What fixes the effect of a validator -/

/-- VLOGO on a record writes one result and ends with one outcome, whatever else HDV holds. -/
theorem concludeLogo_uniform (h : Header) : ∃ r o, ∀ d : Hdv, d.concludeLogo h = (d.setLogo r).endWith o := by
  by_cases hl : h.nintendoLogo = Config.logoRef
  · exact ⟨_, _, fun _ => if_pos hl⟩
  · exact ⟨_, _, fun _ => if_neg hl⟩

/-- VHCK on a record and a computed checksum, whatever else HDV holds. -/
theorem concludeHck_uniform (h : Header) (x : Byte) : ∃ r o, ∀ d : Hdv, d.concludeHck h x = (d.setHck x r).endWith o := by
  by_cases hx : x = h.headerChecksum
  · exact ⟨_, _, fun _ => if_pos hx⟩
  · exact ⟨_, _, fun _ => if_neg hx⟩

/-- VGCK on a record and a computed checksum, whatever else HDV holds. -/
theorem concludeGck_uniform (h : Header) (x : Half) : ∃ r o, ∀ d : Hdv, d.concludeGck h x = (d.setGck x r).endWith o := by
  by_cases hx : x = h.globalChecksum
  · exact ⟨_, _, fun _ => if_pos hx⟩
  · exact ⟨_, _, fun _ => if_neg hx⟩

/-- With the record and the buffer given, a validator makes the same write and ends the same from every state of HDV. -/
theorem runCommand_validator {i : Instr} (hi : i ∈ [Instr.vlogo, .vhck, .vgck]) (rom : Memory) (record : Option Header) :
    ∃ w o, ValidatorWrite i w ∧ ∀ d : Hdv, d.hdr = record → runCommand i rom d = .next ((w d).endWith o) := by
  cases record with
  | none => exact ⟨id, .noHeader, .nothing i, fun d hd => runCommand_validator_of_no_record hi rom hd⟩
  | some h =>
    simp only [List.mem_cons, List.not_mem_nil, or_false] at hi
    obtain rfl | hi := hi
    · obtain ⟨r, o, e⟩ := concludeLogo_uniform h
      exact ⟨_, o, .logo r, fun d hd => by rw [runCommand_vlogo_of_record rom hd, e]⟩
    by_cases hl : rom.len < 0x0150
    · exact ⟨id, .truncatedInput, .nothing i, fun d hd => runCommand_checksum_of_short (by simpa using hi) hd hl⟩
    have hlong : 0x0150 ≤ rom.len := by omega
    obtain rfl | rfl := hi
    · obtain ⟨x, hx⟩ := hck_inside rom hlong
      obtain ⟨r, o, e⟩ := concludeHck_uniform h x
      exact ⟨_, o, .hck x r, fun d hd => by rw [runCommand_vhck_of_long hd hlong hx, e]⟩
    · obtain ⟨x, hx⟩ := gck_inside rom
      obtain ⟨r, o, e⟩ := concludeGck_uniform h x
      exact ⟨_, o, .gck x r, fun d hd => by rw [runCommand_vgck_of_long hd hlong hx, e]⟩

/-- The writes of both validators, then both ends. -/
theorem execAll_validators {i j : Instr} {s : State} {w v : Hdv → Hdv} {o p : CmdOutcome} (hw : ValidatorWrite i w)
    (hv : ValidatorWrite j v) (hi : ∀ d : Hdv, d.hdr = s.hdr → runCommand i s.rom d = .next ((w d).endWith o))
    (hj : ∀ d : Hdv, d.hdr = s.hdr → runCommand j s.rom d = .next ((v d).endWith p)) :
    execAll [i, j] s = .next (s.setHdv (((v (w s.toHdv)).endWith o).endWith p)) := by
  rw [execAll_cons_of_next (exec_of_runCommand (hi _ rfl)), execAll_singleton, ← hv.endWith_comm]
  exact exec_of_runCommand (hj _ (hw.hdr_eq s.toHdv))

end Sys2Proof.Machine

namespace Sys2Proof.Proofs
open Sys2Proof.Machine

/-- Settles O43: both orders make the same writes, which commute, and the same two ends, whose order shows in `LAST` only. -/
theorem validatorsRunInAnyOrder : Obligations.ValidatorsRunInAnyOrder := by
  intro i j s hi hj
  obtain ⟨w, o, hw, hrun⟩ := runCommand_validator hi s.rom s.hdr
  obtain ⟨v, p, hv, hrun'⟩ := runCommand_validator hj s.rom s.hdr
  by_cases hij : i = j
  · subst hij
    exact ⟨_, _, execAll_validators hw hw hrun hrun, execAll_validators hw hw hrun hrun, rfl⟩
  · refine ⟨_, _, execAll_validators hw hv hrun hrun', execAll_validators hv hw hrun' hrun, ?_⟩
    rw [hw.comm hij hv, Hdv.endWith_endWith_comm]
    rfl

end Sys2Proof.Proofs
end

section
/-! Control (R150 to R152): NOP and the reserved codes with their whole next states, every command from every state a next state, and
a step with and without a command presented. -/

namespace Sys2Proof.Machine

theorem Hdv.endWith_reservedCommand (d : Hdv) :
    d.endWith .reservedCommand = { d with errCmd := true, last := .reservedCommand } := by
  simp [Hdv.endWith]

/-- R151: NOP is the identity on HDV, and the host's side stays where it is. -/
theorem exec_nop (s : State) : exec .nop s = .next s :=
  exec_of_runCommand (i := .nop) (d := s.toHdv) rfl

/-- R152: one meaning for the three codes. -/
theorem exec_reserved {i : Instr} (hi : i ∈ [Instr.reserved5, .reserved6, .reserved7]) (s : State) :
    exec i s = .next { s with errCmd := true, last := .reservedCommand } := by
  have hrun : runCommand i s.rom s.toHdv = .next (s.endWith .reservedCommand) := by
    simp only [List.mem_cons, List.not_mem_nil, or_false] at hi
    obtain rfl | rfl | rfl := hi <;> rfl
  rw [exec_of_runCommand hrun, Hdv.endWith_reservedCommand]
  rfl

/-- R32: the reads of DECODE stand behind its test of the length, so none is outside the buffer. -/
theorem exec_decode_completes (s : State) : ∃ t, exec .decode s = .next t := by
  by_cases hl : s.rom.len < 0x0150
  · exact ⟨_, exec_decode_short hl⟩
  · exact ⟨_, exec_decode_long (Nat.not_lt.mp hl)⟩

theorem exec_validator_completes {i : Instr} (hi : i ∈ [Instr.vlogo, .vhck, .vgck]) (s : State) :
    ∃ t, exec i s = .next t := by
  obtain ⟨w, o, -, hrun⟩ := runCommand_validator hi s.rom s.hdr
  exact ⟨_, exec_of_runCommand (hrun s.toHdv rfl)⟩

theorem exec_completes (i : Instr) (s : State) : ∃ t, exec i s = .next t := by
  cases i with
  | nop => exact ⟨s, exec_nop s⟩
  | decode => exact exec_decode_completes s
  | vlogo | vhck | vgck => exact exec_validator_completes (by simp) s
  | reserved5 | reserved6 | reserved7 => exact ⟨_, exec_reserved (by simp) s⟩

/-! ### The step -/

theorem step_of_script_nil {s : State} (hs : s.script = []) : step s = .next s := by
  rw [step, s.takeAction_nil hs, State.idle_eq]

theorem step_of_script_command {s : State} {c : BitVec 3} {rest : List HostAction} (hs : s.script = .command c :: rest) :
    step s = exec (decodeCommand c) { s with script := rest } := by
  rw [step, s.takeAction_cons _ rest hs]

end Sys2Proof.Machine

namespace Sys2Proof.Proofs
open Sys2Proof.Machine

/-- Settles O9: NOP and the reserved codes read nothing, DECODE tests the length first, and a validator makes one of its writes and
ends with one of its outcomes. -/
theorem everyCommandCompletes : Obligations.EveryCommandCompletes := exec_completes

/-- Settles O4: the command of the word runs on the state with the action taken, and the buffer and HDV are the same there. -/
theorem stepRunsPresentedCommand : Obligations.StepRunsPresentedCommand := by
  intro s c rest hs
  refine ⟨step_of_script_command hs, fun d hd => ?_⟩
  rw [step_of_script_command hs, exec_decodeCommand]
  exact State.onHdv_of_next _ _ d hd

/-- Settles O5: no action is taken, and an idle HDV stays as it is. -/
theorem idleStepChangesNothing : Obligations.IdleStepChangesNothing := fun _ => step_of_script_nil

/-- Settles O14: the transition of NOP is the identity. -/
theorem nopChangesNothing : Obligations.NopChangesNothing := exec_nop

/-- Settles O15: the three codes have one meaning, the end with `ReservedCommand`. -/
theorem reservedCodesLatchReservedCommand : Obligations.ReservedCodesLatchReservedCommand :=
  fun s => ⟨exec_reserved (by simp) s, exec_reserved (by simp) s, exec_reserved (by simp) s⟩

end Sys2Proof.Proofs
end

section
/-! The outcomes of the commands (R160 to R168) and the validators after a DECODE of a short buffer (R169). -/

namespace Sys2Proof.Machine

theorem Hdv.concludeLogo_last (h : Header) (d : Hdv) :
    (d.concludeLogo h).last = .ok ∨ (d.concludeLogo h).last = .logoMismatch := by
  obtain ⟨-, e⟩ | ⟨-, e⟩ := Hdv.concludeLogo_cases h d <;> simp [e]

theorem Hdv.concludeHck_last (h : Header) (x : Byte) (d : Hdv) :
    (d.concludeHck h x).last = .ok ∨ (d.concludeHck h x).last = .headerChecksumMismatch := by
  obtain ⟨-, e⟩ | ⟨-, e⟩ := Hdv.concludeHck_cases h x d <;> simp [e]

theorem Hdv.concludeGck_last (h : Header) (x : Half) (d : Hdv) :
    (d.concludeGck h x).last = .ok ∨ (d.concludeGck h x).last = .globalChecksumMismatch := by
  obtain ⟨-, e⟩ | ⟨-, e⟩ := Hdv.concludeGck_cases h x d <;> simp [e]

/-- R169: DECODE leaves no record, so that a validator ends at its first test, and both sticky flags are set. -/
theorem execAll_decode_short_validator {i : Instr} (hi : i ∈ [Instr.vlogo, .vhck, .vgck]) {s : State}
    (hl : s.rom.len < 0x0150) : execAll [.decode, i] s = .next
      { s with
        hdr := none, logoRes := .notRun, hckRes := .notRun, gckRes := .notRun, hckCalc := none, gckCalc := none
        errTrunc := true, errNohdr := true, last := .noHeader } := by
  rw [execAll_cons_of_next (exec_decode_short hl), execAll_singleton, exec_validator_of_no_record hi rfl,
    Hdv.endWith_truncatedInput]
  rfl

end Sys2Proof.Machine

namespace Sys2Proof.Proofs
open Sys2Proof.Machine

/-- Settles O47, by the ends that `runCommand_cases` lists. -/
theorem outcomesOfEachCommand : Obligations.OutcomesOfEachCommand := by
  intro i s t he
  obtain ⟨d, hr, rfl⟩ := exec_next he
  obtain ⟨rfl, rfl⟩ | ⟨hi, rfl⟩ | ⟨rfl, -, rfl⟩ | ⟨rfl, -, rfl⟩ | ⟨hi, -, rfl⟩ | ⟨h, rfl, -, rfl⟩ | ⟨h, hi, -, -, rfl⟩ |
    ⟨h, x, rfl, -, -, -, rfl⟩ | ⟨h, x, rfl, -, -, -, rfl⟩ := runCommand_cases i _ _ d hr
  · simp
  · rcases hi with rfl | rfl | rfl <;> simp
  · simp
  · simp
  · rcases hi with rfl | rfl | rfl <;> simp
  · obtain e | e := s.concludeLogo_last h <;> simp [e]
  · rcases hi with rfl | rfl <;> simp
  · obtain e | e := s.concludeHck_last h x <;> simp [e]
  · obtain e | e := s.concludeGck_last h x <;> simp [e]

/-- Settles O51: the state that both commands leave, whole. -/
theorem validatorsAfterFailedDecode : Obligations.ValidatorsAfterFailedDecode := by
  intro i s hi hl
  exact ⟨_, execAll_decode_short_validator hi hl, rfl, rfl, rfl, rfl, rfl, rfl, rfl⟩

end Sys2Proof.Proofs
end

section
/-! Several instances (R180): a step of one is a write at its place in the list, and writes at different places commute. -/

namespace Sys2Proof.Machine

/-- The state at place `k` alone fixes what a step of instance `k` writes there. Beyond the list `List.set` writes nothing, as
such a step does (log entry 14). -/
theorem stepOne_next_uniform {k : Nat} {l l' : List State} (h : stepOne k l = .next l') :
    ∃ t, ∀ m : List State, m[k]? = l[k]? → stepOne k m = .next (m.set k t) := by
  cases hk : l[k]? with
  | none =>
    refine ⟨State.reset, fun m hm => ?_⟩
    rw [List.set_eq_of_length_le (List.getElem?_eq_none_iff.mp hm)]
    simp only [stepOne, hm]
  | some s =>
    cases hs : step s with
    | next t => exact ⟨t, fun m hm => by simp only [stepOne, hm, hs]⟩
    | fault f => simp [stepOne, hk, hs] at h
    | refused r => simp [stepOne, hk, hs] at h

end Sys2Proof.Machine

namespace Sys2Proof.Proofs
open Sys2Proof.Machine

/-- Settles O56: neither step changes the state at the other's place, and the two writes commute. -/
theorem instancesAreIndependent : Obligations.InstancesAreIndependent := by
  intro j k l l₁ l₂ hjk hj hk
  obtain ⟨t, ht⟩ := stepOne_next_uniform hj
  obtain ⟨u, hu⟩ := stepOne_next_uniform hk
  obtain rfl : l₁ = l.set j t := by simpa [hj] using ht l rfl
  obtain rfl : l₂ = (l.set j t).set k u := by simpa [hk] using hu _ rfl
  refine ⟨l.set k u, hu l (List.getElem?_set_ne hjk).symm, ?_⟩
  rw [ht _ (List.getElem?_set_ne hjk.symm), List.set_comm _ _ hjk]

end Sys2Proof.Proofs
end

section
/-! The host's events (R190, R196, R200): a step for each kind of action, every step a next state, and what a step can leave as the
last read. -/

namespace Sys2Proof.Machine

/-- R190, R191: HDV goes to its reset state, and the host's side stays. -/
theorem step_of_script_reset {s : State} {rest : List HostAction} (hs : s.script = .reset :: rest) :
    step s = .next { s with toHdv := Hdv.reset, script := rest } := by
  rw [step, s.takeAction_cons _ rest hs]
  rfl

/-- R196, R43: of the state only the buffer is replaced. -/
theorem step_of_script_present {s : State} {bytes : List Byte} {rest : List HostAction}
    (hs : s.script = .present bytes :: rest) : step s = .next { s with rom := Memory.ofBytes bytes, script := rest } := by
  rw [step, s.takeAction_cons _ rest hs]
  rfl

/-- R35, R53: a read gives the host its answer, a value or a refusal, and changes nothing of HDV. -/
theorem step_of_script_read {s : State} {sel : BitVec 5} {rest : List HostAction} (hs : s.script = .read sel :: rest) :
    step s = .next { s with script := rest, readData := s.readRegister sel } := by
  rw [step, s.takeAction_cons _ rest hs]
  rfl

/-- R150, R200: a presented command completes, and the other actions are single writes. -/
theorem step_completes (s : State) : ∃ t, step s = .next t := by
  cases hs : s.script with
  | nil => exact ⟨s, step_of_script_nil hs⟩
  | cons a rest =>
    cases a with
    | reset => exact ⟨_, step_of_script_reset hs⟩
    | command c =>
      rw [step_of_script_command hs]
      exact exec_completes _ _
    | present bytes => exact ⟨_, step_of_script_present hs⟩
    | read sel => exact ⟨_, step_of_script_read hs⟩

/-- A step that is not a read leaves what the host last read. -/
theorem step_readData {s t : State} (h : step s = .next t) : t.readData = s.readData ∨
    ∃ sel rest, s.script = .read sel :: rest ∧ t.toHdv = s.toHdv ∧ t.readData = s.readRegister sel := by
  obtain ⟨-, rfl⟩ | ⟨rest, -, rfl⟩ | ⟨c, rest, -, he⟩ | ⟨bytes, rest, -, rfl⟩ | ⟨sel, rest, hs, rfl⟩ := step_cases s t h
  · exact .inl rfl
  · exact .inl rfl
  · obtain ⟨d, -, rfl⟩ := exec_next he
    exact .inl rfl
  · exact .inl rfl
  · exact .inr ⟨sel, rest, hs, rfl, rfl⟩

/-- A read is refused for a reserved select and for a register that holds no value, and for nothing else (R11, R53). -/
theorem Hdv.readRegister_eq_refused_iff {d : Hdv} {sel : BitVec 5} {why : ReadRefusal} :
    d.readRegister sel = .refused why ↔ (regOfSelect sel = none ∧ why = .reservedSelect sel) ∨
      ∃ r, regOfSelect sel = some r ∧ d.regValue r = none ∧ why = .holdsNoValue r := by
  obtain ⟨hr, e⟩ | ⟨r, hr, hv, e⟩ | ⟨r, v, hr, hv, e⟩ := d.readRegister_cases sel <;> rw [e]
  · simp [hr, eq_comm]
  · simp [hr, hv, eq_comm]
  · simp [hr, hv]

end Sys2Proof.Machine

namespace Sys2Proof.Proofs
open Sys2Proof.Machine

/-- Settles O7, by the step of the reset event. -/
theorem resetEventRestoresResetState : Obligations.ResetEventRestoresResetState :=
  fun _ _ => step_of_script_reset

/-- Settles O8, by the step that presents a buffer. -/
theorem presentedBufferReplacesBufferOnly : Obligations.PresentedBufferReplacesBufferOnly :=
  fun _ _ _ => step_of_script_present

/-- Settles O10: only a read changes what the host last read, and it is a refusal in two cases only. -/
theorem everyStepCompletes : Obligations.EveryStepCompletes := by
  intro s
  obtain ⟨t, ht⟩ := step_completes s
  refine ⟨t, ht, fun why hwhy => ?_⟩
  obtain hkept | ⟨sel, rest, hs, hhdv, hread⟩ := step_readData ht
  · exact .inl (hkept ▸ hwhy)
  · exact .inr ⟨sel, rest, hs, hhdv, Hdv.readRegister_eq_refused_iff.mp (hread ▸ hwhy)⟩

end Sys2Proof.Proofs
end

section
/-! One image through DECODE and the three validators (R201): each validator writes a result that says whether its check holds, and
none of the four commands sets a sticky flag. -/

namespace Sys2Proof.Machine

/-- With a record VLOGO writes a result, that of the comparison, and sets no sticky flag (R120). -/
theorem Hdv.concludeLogo_result (h : Header) (d : Hdv) : ∃ r o, d.concludeLogo h = { d with logoRes := r, last := o } ∧
    r ≠ .notRun ∧ (r = .pass ↔ h.nintendoLogo = Config.logoRef) := by
  by_cases hl : h.nintendoLogo = Config.logoRef
  · exact ⟨.pass, _, Hdv.concludeLogo_of_eq hl d, by simp [hl]⟩
  · exact ⟨.fail, _, Hdv.concludeLogo_of_ne hl d, by simp [hl]⟩

/-- With a record and a computed checksum VHCK writes both it and the result, and sets no sticky flag (R134). -/
theorem Hdv.concludeHck_result (h : Header) (x : Byte) (d : Hdv) :
    ∃ r o, d.concludeHck h x = { d with hckCalc := some x, hckRes := r, last := o } ∧
      r ≠ .notRun ∧ (r = .pass ↔ x = h.headerChecksum) := by
  by_cases hx : x = h.headerChecksum
  · exact ⟨.pass, _, Hdv.concludeHck_of_eq hx d, by simp [hx]⟩
  · exact ⟨.fail, _, Hdv.concludeHck_of_ne hx d, by simp [hx]⟩

/-- With a record and a computed checksum VGCK writes both it and the result, and sets no sticky flag (R139). -/
theorem Hdv.concludeGck_result (h : Header) (y : Half) (d : Hdv) :
    ∃ r o, d.concludeGck h y = { d with gckCalc := some y, gckRes := r, last := o } ∧
      r ≠ .notRun ∧ (r = .pass ↔ y = h.globalChecksum) := by
  by_cases hy : y = h.globalChecksum
  · exact ⟨.pass, _, Hdv.concludeGck_of_eq hy d, by simp [hy]⟩
  · exact ⟨.fail, _, Hdv.concludeGck_of_ne hy d, by simp [hy]⟩

/-- The sequence that CHECK stands for (R67), on a record and a long enough buffer. -/
theorem execAll_check_of_record {s : State} {h : Header} {x : Byte} {y : Half} (hs : s.hdr = some h)
    (hl : 0x0150 ≤ s.rom.len) (hx : hck s.rom = .ok x) (hy : gck s.rom = .ok y) :
    execAll [.vlogo, .vhck, .vgck] s = .next (s.setHdv (((s.concludeLogo h).concludeHck h x).concludeGck h y)) := by
  have hlogo : (s.concludeLogo h).hdr = some h := (Hdv.concludeLogo_calcs h s.toHdv).1.trans hs
  have hhck : ((s.concludeLogo h).concludeHck h x).hdr = some h := (Hdv.concludeHck_calcs h x _).1.trans hlogo
  rw [execAll_cons_of_next (exec_vlogo_of_record hs),
    execAll_cons_of_next (exec_of_runCommand (s := s.setHdv (s.concludeLogo h)) (runCommand_vhck_of_long hlogo hl hx)),
    execAll_singleton]
  exact exec_of_runCommand (runCommand_vgck_of_long hhck hl hy)

/-- DECODE and CHECK on one long enough buffer, as a whole next state: the sticky flags are those before, and each result says
whether the header of the buffer satisfies its check. -/
theorem execAll_decode_check {s : State} {x : Byte} {y : Half} (hl : 0x0150 ≤ s.rom.len) (hx : hck s.rom = .ok x)
    (hy : gck s.rom = .ok y) : ∃ rLogo rHck rGck o,
      execAll [.decode, .vlogo, .vhck, .vgck] s = .next
        { s with
          hdr := some (headerOf s.rom), logoRes := rLogo, hckRes := rHck, gckRes := rGck
          hckCalc := some x, gckCalc := some y, last := o } ∧
      (rLogo ≠ .notRun ∧ (rLogo = .pass ↔ (headerOf s.rom).nintendoLogo = Config.logoRef)) ∧
      (rHck ≠ .notRun ∧ (rHck = .pass ↔ x = (headerOf s.rom).headerChecksum)) ∧
      (rGck ≠ .notRun ∧ (rGck = .pass ↔ y = (headerOf s.rom).globalChecksum)) := by
  have hcheck := execAll_check_of_record
    (s := s.setHdv ((s.setRecord (some (headerOf s.rom))).endWith .ok)) rfl hl hx hy
  rw [execAll_cons_of_next (exec_decode_long hl), hcheck, Hdv.endWith_ok]
  obtain ⟨rLogo, _, elogo, hlogo⟩ := Hdv.concludeLogo_result (headerOf s.rom) _
  obtain ⟨rHck, _, ehck, hhck⟩ := Hdv.concludeHck_result (headerOf s.rom) x _
  obtain ⟨rGck, o, egck, hgck⟩ := Hdv.concludeGck_result (headerOf s.rom) y _
  refine ⟨rLogo, rHck, rGck, o, ?_, hlogo, hhck, hgck⟩
  rw [State.setHdv_toHdv, elogo, ehck, egck]
  rfl

end Sys2Proof.Machine

namespace Sys2Proof.Proofs
open Sys2Proof.Machine

/-- Settles O44: the flags are those of the reset state, and each check on the header of the buffer is one on the bytes that the
header takes from it. -/
theorem cleanValidationOfOneImage : Obligations.CleanValidationOfOneImage := by
  intro s hreset hl
  obtain ⟨x, hx⟩ := hck_inside s.rom hl
  obtain ⟨y, hy⟩ := gck_inside s.rom
  obtain ⟨_, _, _, _, hexec, ⟨hlogo, hlogoPass⟩, ⟨hhck, hhckPass⟩, hgck, hgckPass⟩ := execAll_decode_check hl hx hy
  have hnoFault : s.pNoFault := by
    rw [hreset]
    exact ⟨rfl, rfl, rfl⟩
  rw [headerOf_nintendoLogo_eq_iff hl] at hlogoPass
  rw [← BitVec.toNat_inj, headerOf, bigEndian_toNat] at hgckPass
  exact ⟨_, x, y, s.rom.byteAt 0x014E, s.rom.byteAt 0x014F, s.rom.byteAt 0x014D, hexec, hnoFault, rfl, hx, hy, rfl, rfl,
    s.rom.read1_inside _ (by omega), s.rom.read1_inside _ (by omega), s.rom.read1_inside _ (by omega),
    hlogoPass, hhckPass, hgckPass, hlogo, hhck, hgck⟩

end Sys2Proof.Proofs
end
